-- ==== Sys2Proof/Word.lean ====
section
/-! DEFINITION. The widths of the block: bytes and 64-bit storage words (R8, R13), 32-bit field values (R9), 40-bit command words (R60). All are unsigned (R12). -/

namespace Sys2Proof

/-- One byte of storage (R13). -/
abbrev Byte := BitVec 8

/-- One storage word, `WORD_BITS = 64` (R8). -/
abbrev Word := BitVec 64

/-- The `value` operand of a WRITE, `uint32` (R9, R62). -/
abbrev FieldValue := BitVec 32

/-- One command word `cmd[39:0]` (R60, R70). -/
abbrev CmdWord := BitVec 40

end Sys2Proof
end

