-- ==== Sys2Proof/Syntax.lean ====
section
/-! DEFINITION. The commands of the block as syntax: one constructor for each row of spec/opcode_table.json (R61). -/

namespace Sys2Proof

/-- The commands. RESET, DRAIN and the reserved word carry no operand: their bits 37..0 are ignored (R64, R65). -/
inductive Instr where
  /-- WRITE `<value>, <bitCount>` (R80). `bitCount` is a count, so a number; `WellFormed` holds it to the six bits of R63. -/
  | write (value : FieldValue) (bitCount : Nat)
  /-- RESET (R100). -/
  | reset
  /-- DRAIN (R104). -/
  | drain
  /-- A word with `op = 0b11` (R65). -/
  | reserved
  deriving DecidableEq, Repr

end Sys2Proof
end

