-- ==== Sys2Proof/WellFormed.lean ====
section
/-! DEFINITION. Which terms of `Instr` a command word can hold. -/

namespace Sys2Proof

/-- The operand check of R63 and R71: `<bitCount>` is an integer `0 .. 63`. The values 0 and 33..63 are well formed:
they are encodings whose outcome is InvalidArgument. The value's range `0 .. 2^32 - 1` is its type. -/
def Instr.isWellFormed : Instr → Bool
  | .write _ bitCount => bitCount < 64
  | .reset => true
  | .drain => true
  | .reserved => true

/-- `i` is a command that a command word can hold. -/
abbrev Instr.WellFormed (i : Instr) : Prop := i.isWellFormed = true

end Sys2Proof
end

