-- ==== Sys2Proof/Decode.lean ====
section
/-! DEFINITION. The command word (R60 to R71): its fields, the decoder, total over all 2^40 words (R69), the encoder, and the reading of the opcode table's words. -/

namespace Sys2Proof

/-- `op = cmd[39:38]` (R60). -/
def opField (w : CmdWord) : BitVec 2 := w.extractLsb' 38 2

/-- `bitCount = cmd[37:32]`, unsigned (R60, R63). -/
def bitCountField (w : CmdWord) : BitVec 6 := w.extractLsb' 32 6

/-- `value = cmd[31:0]`, used as is (R60, R62). -/
def valueField (w : CmdWord) : FieldValue := w.extractLsb' 0 32

/-- The decoder of R61 and R69. Every word has a meaning, so none is rejected: `op = 0b11` is the reserved command
(R65), and RESET and DRAIN ignore bits 37..0 (R64). -/
def decode (w : CmdWord) : Instr :=
  if opField w = 0b00#2 then .write (valueField w) (bitCountField w).toNat
  else if opField w = 0b01#2 then .reset
  else if opField w = 0b10#2 then .drain
  else .reserved

/-- `{op, bitCount, value}` (R60). -/
def packCmd (op : BitVec 2) (bitCount : BitVec 6) (value : FieldValue) : CmdWord := op ++ bitCount ++ value

/-- The encoder, from the table of R71; the ignored bits of RESET and DRAIN are written as zero (R64), and
so are the reserved word's, which R71 writes raw: DEDUCED (log 11). DESIGN CHOICE (log 10): a `bitCount` past 63 does not fit
its field; the encoder keeps its low six bits (the reduction D13 leaves to the host), and `WellFormed` rules it out. -/
def encode : Instr → CmdWord
  | .write value bitCount => packCmd 0b00#2 (BitVec.ofNat 6 bitCount) value
  | .reset => packCmd 0b01#2 0#6 0#32
  | .drain => packCmd 0b10#2 0#6 0#32
  | .reserved => packCmd 0b11#2 0#6 0#32

/-- The 40-bit command word whose low `nbits` bits are those of `w` and whose other bits are zero (R60, R70). -/
def tableWord (nbits w : Nat) : CmdWord := BitVec.ofNat 40 (w % 2 ^ nbits)

/-- What the decoder reads from a word numbered as spec/opcode_table.json numbers it. Every command word is 40 bits
(R70): there is no longer one. -/
def decodeTableWord (nbits w : Nat) : Option Instr :=
  if nbits ≤ 40 then some (decode (tableWord nbits w)) else none

end Sys2Proof
end

