-- ==== Sys2Proof/Machine/Operands.lean ====
section
/-! DEFINITION. The operand arithmetic of the commands: mask and masked field, the deposit position, the two parts of a field, the drain length. All of it is exact and unsigned (R12, R15). -/

namespace Sys2Proof.Machine

/-- `mask(n) = 2^n - 1`, computed exactly before it is narrowed, so `mask(32) = 0xFFFFFFFF` (R15). -/
def mask (bitCount : Nat) : FieldValue := BitVec.ofNat 32 (2 ^ bitCount - 1)

/-- `m = zext_64(value & mask(bitCount))` (R85). -/
def maskedField (value : FieldValue) (bitCount : Nat) : Word := (value &&& mask bitCount).setWidth 64

/-- `w = cursor div 64` (R82). -/
def wordIndex (cursor : Nat) : Nat := cursor / 64

/-- `shift = cursor mod 64` (R82). -/
def wordShift (cursor : Nat) : Nat := cursor % 64

/-- The field straddles a word boundary: `shift + bitCount > 64` (R83). -/
abbrev spansTwoWords (cursor bitCount : Nat) : Prop := 64 < wordShift cursor + bitCount

/-- `(m << shift)[63:0]`: the bits of the field that land in the current word (R82). -/
def currentPart (m : Word) (shift : Nat) : Word := m <<< shift

/-- `m >> (64 - shift)`: the bits of the field that land in the next word (R83). -/
def nextPart (m : Word) (shift : Nat) : Word := m >>> (64 - shift)

/-- `len = ceil(cursor / 8) = (cursor + 7) div 8` (R105). -/
def drainLength (cursor : Nat) : Nat := (cursor + 7) / 8

end Sys2Proof.Machine
end

