-- ==== Sys2Proof/Config.lean ====
section
/-! DEFINITION. What an implementation of the block fixes: its capacity (R6) and its place in a system (R48). -/

namespace Sys2Proof

/-- `CAP_BYTES` of `State.reset`. The spec leaves the parameter OPEN, any integer from 1 up (R6, D7); `step` reads it
from the state's own `capBytes`, so the model covers every capacity and this number is only the one `State.reset` shows.
DESIGN CHOICE (log 1): 16, the largest capacity of the spec's test vectors. No statement rests on it. -/
def Config.capBytes : Nat := 16

/-- `BLOCK_BASE`, the block's place in a larger system's address map: OPEN, and read by no rule (R48, D15).
A constant without a value, so no proof can see what it is. -/
opaque Config.blockBase : Nat

end Sys2Proof
end

