-- ==== Sys2Proof/Machine/State.lean ====
section
/-! DEFINITION. The state of the block as plain data, the host's side of its command port, the reasons a step can stop, and the state after power-on reset. -/

namespace Sys2Proof.Machine

/-- Storage as byte cells, keyed by the byte index of R13 and R29. A byte that is not listed reads as zero, which is
what power-on and RESET leave there (R31). The canonical form is `Memory.wf` (Machine/Ops.lean). -/
abbrev Memory := List Host.Cell

/-- The outcome of a command (R67). -/
inductive Status where
  /-- The command was performed. -/
  | ok
  /-- InvalidArgument (R121). -/
  | invalidArgument
  /-- BufferExhausted (R122). -/
  | bufferExhausted
  /-- The reserved opcode (R124). -/
  | illegalCommand
  deriving DecidableEq, Repr

/-- The response to one command (R66): the status, the DRAIN length in bytes, and that many bytes by value. -/
structure Response where
  status : Status
  len : Nat
  data : List Byte
  deriving DecidableEq, Repr

/-- What can happen at the block's boundary (R135, R145, R150). -/
inductive HostEvent where
  /-- The host issues one command word and waits for its response (R50). -/
  | command (word : CmdWord)
  /-- The host issues `second` before the response to `first`: it breaks R145. -/
  | overlapping (first second : CmdWord)
  /-- The power is lost and comes back: power-on reset follows (R135, R140). DEDUCED (log 5). -/
  | powerCycle
  deriving DecidableEq, Repr

/-- The block (`cursor`, `storage`: R20), the constant of its construction (`capBytes`: R6), and the exchange with the
host, which is the model's own record (`inputs`, `responses`: R50, R151; log 2 and log 3). -/
structure State where
  /-- `CAP_BYTES` (R6): at least 1, fixed for the block's lifetime; no step writes it (log 1). -/
  capBytes : Nat
  /-- The next free bit offset (R21). -/
  cursor : Nat
  /-- `word[0] .. word[W-1]` (R22), as the bytes of R40. -/
  storage : Memory
  /-- Host events still to come, oldest first. -/
  inputs : List HostEvent
  /-- Responses given so far, oldest first. -/
  responses : List Response
  deriving DecidableEq, Repr

/-- Why the machine stops. -/
inductive Fault where
  /-- A storage index outside the storage: raised by the word access of WRITE for an index at or past `W`, and by DRAIN
  for a length past `CAP_BYTES` (R13, R49). Safe: no state with the block's invariants raises it (log 6). -/
  | outsideStorage
  deriving DecidableEq, Repr

/-- Why a step has no meaning. -/
inductive Refusal where
  /-- An instruction without a meaning yet, by its mnemonic: raised by `exec`'s arm only. Safe. -/
  | notModelled (mnemonic : String)
  /-- Two commands overlap: "A model has no transition for them: it refuses such a host" (R145). Raised by `step`. Safe. -/
  | overlappingCommands
  deriving DecidableEq, Repr

/-- The state of a block of `capBytes` bytes right after power-on (R31, R140): cursor 0, every storage bit 0. -/
def State.powerOn (capBytes : Nat) : State :=
  { capBytes := capBytes, cursor := 0, storage := [], inputs := [], responses := [] }

/-- The state after reset (R140), for the capacity `Config.capBytes`; nothing is issued yet (log 2). -/
def State.reset : State := State.powerOn Config.capBytes

end Sys2Proof.Machine
end

