-- ==== Sys2Proof/Machine/Ops.lean ====
section
/-! DEFINITION. The named operations: storage by byte, bit and word (R13, R40), the accesses the commands make to it, the response that ends a command and the error that ends one (R14, R66), power-on reset, and the taking of a host event. -/

namespace Sys2Proof.Machine

/-- What a byte that is not listed reads as: storage is zero where nothing was written (R31, R140). -/
def Memory.unlisted : Byte := 0#8

/-- The canonical form: addresses strictly rising, no cell equal to what an unlisted byte reads as. -/
abbrev Memory.wf (m : Memory) : Prop :=
  m.Pairwise (fun c d => c.1 < d.1) ∧ ∀ c ∈ m, c.2 ≠ Memory.unlisted

/-- `Byte(j)` (R13). -/
def Memory.byteAt : Memory → Nat → Byte
  | [], _ => Memory.unlisted
  | c :: m, j => if c.1 = j then c.2 else Memory.byteAt m j

/-- The cells of `m` but for byte `j`'s. -/
def Memory.eraseByte (m : Memory) (j : Nat) : Memory := m.filter (fun c => c.1 != j)

/-- The cell of byte `j` put where its address belongs; `m` lists no other for it. -/
def Memory.insertCell (j : Nat) (b : Byte) : Memory → Memory
  | [] => [(j, b)]
  | c :: m => if j < c.1 then (j, b) :: c :: m else c :: Memory.insertCell j b m

/-- Byte `j` becomes `b`. -/
def Memory.setByte (m : Memory) (j : Nat) (b : Byte) : Memory :=
  if b = Memory.unlisted then m.eraseByte j else Memory.insertCell j b (m.eraseByte j)

/-- `Bit(k)`: bit `k mod 8` of byte `k div 8` (R13, R40). -/
def Memory.bitAt (m : Memory) (k : Nat) : Bool := (m.byteAt (k / 8)).getLsbD (k % 8)

/-- `word[w]`: byte `8w` is the least significant and byte `8w+7` the most significant (R40). -/
def Memory.wordAt (m : Memory) (w : Nat) : Word :=
  m.byteAt (8 * w + 7) ++ m.byteAt (8 * w + 6) ++ m.byteAt (8 * w + 5) ++ m.byteAt (8 * w + 4) ++
    m.byteAt (8 * w + 3) ++ m.byteAt (8 * w + 2) ++ m.byteAt (8 * w + 1) ++ m.byteAt (8 * w)

/-- `word[w] <- v`: byte `8w + i` becomes bits `8i+7 .. 8i` of `v` (R40). -/
def Memory.setWord (m : Memory) (w : Nat) (v : Word) : Memory :=
  (List.range 8).foldl (fun m i => m.setByte (8 * w + i) (v.extractLsb' (8 * i) 8)) m

/-- `CAPACITY_BITS = 8 * CAP_BYTES` (R7). -/
def State.capacityBits (s : State) : Nat := 8 * s.capBytes

/-- `W = ceil(CAP_BYTES / 8)`, the number of storage words (R8). -/
def State.wordCount (s : State) : Nat := (s.capBytes + 7) / 8

/-- `CW = ceil(log2(CAPACITY_BITS + 1))`, the width of the cursor register (R10). -/
def State.cursorWidth (s : State) : Nat := Nat.clog 2 (s.capacityBits + 1)

/-- `LW = ceil(log2(CAP_BYTES + 1))`, the width of the response's length field (R10). -/
def State.lenWidth (s : State) : Nat := Nat.clog 2 (s.capBytes + 1)

/-- `word[w] <- word[w] | v` (R82), the one way WRITE changes storage (R13), in a storage of `wordCount` words. `none` for
an index that names no word of it (R49). -/
def Memory.orWord (m : Memory) (wordCount w : Nat) (v : Word) : Option Memory :=
  if w < wordCount then some (m.setWord w (m.wordAt w ||| v)) else none

/-- The deposit of a masked field of `bitCount` bits at a cursor: into the current word (R82), and into the next only when
the field straddles the boundary (R83). -/
def Memory.deposit (m : Memory) (wordCount cursor : Nat) (field : Word) (bitCount : Nat) : Option Memory :=
  (m.orWord wordCount (wordIndex cursor) (currentPart field (wordShift cursor))).bind fun m' =>
    if spansTwoWords cursor bitCount then
      m'.orWord wordCount (wordIndex cursor + 1) (nextPart field (wordShift cursor))
    else some m'

/-- `for w in 0 .. W-1: word[w] <- 0` (R100, R101). -/
def State.clearedStorage (s : State) : Memory :=
  (List.range s.wordCount).foldl (fun m w => m.setWord w 0#64) s.storage

/-- `MemRead(j, n)`, defined for `j + n <= CAP_BYTES` (R13). -/
def State.memRead (s : State) (j n : Nat) : Option (List Byte) :=
  if j + n ≤ s.capBytes then some ((List.range n).map fun i => s.storage.byteAt (j + i)) else none

/-- `respond(status, len, data)`: the command ends and its response is given (R14, R66). -/
def respond (status : Status) (len : Nat) (data : List Byte) (s : State) : Host.Outcome State Fault Refusal :=
  .next { s with responses := s.responses ++ [{ status := status, len := len, data := data }] }

/-- `raise <error>`, the block's one form of exception: the command ends with no change to the cursor or the storage,
and the response carries the status alone (R14, R123). Nothing is saved and control goes nowhere (R126), so there is
nothing to return from (R127). -/
def raise (error : Status) (s : State) : Host.Outcome State Fault Refusal := respond error 0 [] s

/-- Power-on reset of the block (R140): the cursor and the storage of `State.powerOn`; the capacity is fixed (R143), and
the host keeps the responses it was given and the events it still holds. DEDUCED (log 5). -/
def State.powerCycled (s : State) : State :=
  { State.powerOn s.capBytes with inputs := s.inputs, responses := s.responses }

/-- The state once the oldest host event is taken, `rest` being the later ones. -/
def State.withInputs (s : State) (rest : List HostEvent) : State := { s with inputs := rest }

/-- The state in which the host issues `word` next, before the events it already holds (log 2). -/
def State.issue (s : State) (word : CmdWord) : State := { s with inputs := .command word :: s.inputs }

end Sys2Proof.Machine
end

