-- ==== Sys2Proof/Machine/Flags.lean ====
section
/-! DEFINITION. The block has no flags or condition codes (R27): what a command reports is its status, and this file computes it (R67, R81, R125). -/

namespace Sys2Proof.Machine

/-- The status codes of R67, two bits. -/
def Status.code : Status → BitVec 2
  | .ok => 0#2
  | .invalidArgument => 1#2
  | .bufferExhausted => 2#2
  | .illegalCommand => 3#2

/-- The checks of WRITE in their order: the width first, legal from `MIN_FIELD = 1` to `MAX_FIELD = 32` (R9, R63), then
the capacity, on the exact sum (R12, R81, R125). -/
def writeStatus (s : State) (bitCount : Nat) : Status :=
  if bitCount = 0 ∨ 32 < bitCount then .invalidArgument
  else if s.capacityBits < s.cursor + bitCount then .bufferExhausted
  else .ok

end Sys2Proof.Machine
end

