-- ==== Sys2Proof/Machine/Control.lean ====
section
/-! DEFINITION. The meanings of RESET (R100 to R103), DRAIN (R104 to R108) and the reserved opcode (R65, R124). -/

namespace Sys2Proof.Machine

/-- RESET (R100): every storage word becomes zero (R101), the cursor 0; it never fails (R102). -/
def execReset (s : State) : Host.Outcome State Fault Refusal :=
  respond .ok 0 [] { s with storage := s.clearedStorage, cursor := 0 }

/-- DRAIN (R104): the length (R105), the bytes (R106); no state is written (R107). The fault is the bound of `MemRead`
(R13), which a cursor within the capacity never meets (R105, R108). -/
def execDrain (s : State) : Host.Outcome State Fault Refusal :=
  match s.memRead 0 (drainLength s.cursor) with
  | none => .fault .outsideStorage
  | some data => respond .ok (drainLength s.cursor) data s

/-- The reserved opcode (R65): status ILLEGAL_COMMAND, no state change. -/
def execReserved (s : State) : Host.Outcome State Fault Refusal := raise .illegalCommand s

end Sys2Proof.Machine
end

