-- ==== Sys2Proof/Machine/Write.lean ====
section
/-! DEFINITION. The meaning of WRITE (R80 to R88). -/

namespace Sys2Proof.Machine

/-- WRITE (R80): the checks (R81), the masked field (R85), its deposit (R82, R83), the cursor's advance (R84). The fault
is the checked index of R49; `Memory.orWord` never answers `none` once the checks have passed (R86). -/
def execWrite (value : FieldValue) (bitCount : Nat) (s : State) : Host.Outcome State Fault Refusal :=
  if writeStatus s bitCount = .ok then
    match s.storage.deposit s.wordCount s.cursor (maskedField value bitCount) bitCount with
    | none => .fault .outsideStorage
    | some m => respond .ok 0 [] { s with storage := m, cursor := s.cursor + bitCount }
  else raise (writeStatus s bitCount) s

end Sys2Proof.Machine
end

