-- ==== Sys2Proof/Machine/Dispatch.lean ====
section
/-! DEFINITION. One arm for each command (R61, R69). -/

namespace Sys2Proof.Machine

def exec (i : Instr) (s : State) : Host.Outcome State Fault Refusal :=
  match i with
  | .write value bitCount => Sys2Proof.Machine.execWrite value bitCount s
  | .reset => Sys2Proof.Machine.execReset s
  | .drain => Sys2Proof.Machine.execDrain s
  | .reserved => Sys2Proof.Machine.execReserved s

end Sys2Proof.Machine
end

