-- ==== Sys2Proof/Machine/Step.lean ====
section
/-! DEFINITION. One step of the machine: the oldest host event is taken and performed (R50, R69). The block fetches nothing (R25, R53): the host issues each command word. -/

namespace Sys2Proof.Machine

/-- One step. A command is decoded and performed atomically (R45, R69); a power cycle is followed by power-on reset
(R135, R140); overlapping commands are refused (R145). With no event the block is idle and its state persists (R135). -/
def step (s : State) : Host.Outcome State Fault Refusal :=
  match s.inputs with
  | [] => .next s
  | .command word :: rest => exec (decode word) (s.withInputs rest)
  | .powerCycle :: rest => .next (s.withInputs rest).powerCycled
  | .overlapping _ _ :: _ => .refused .overlappingCommands

/-- The state in which the host issues next the command word whose low `nbits` bits are those of `w`; `step` then runs
exactly it, and nothing else changes (log 2). -/
def State.withFetchWord (s : State) (nbits w : Nat) : State := s.issue (tableWord nbits w)

end Sys2Proof.Machine
end

