-- ==== Sys2Proof/Machine/Assembler.lean ====
section
/-! DEFINITION. The spec's assembler (R71): one line of text, as characters, to its command word. It is the host's tool: no step calls it. -/

namespace Sys2Proof.Machine

/-- What one line of assembler text stands for. -/
inductive AsmLine where
  /-- Nothing but spaces and a comment. -/
  | blank
  /-- One command word. -/
  | word (w : CmdWord)
  /-- No line of R71. -/
  | malformed
  deriving DecidableEq, Repr

/-- The characters that separate words of a line. DESIGN CHOICE (log 8): space and tab. -/
def isSpace (c : Char) : Bool := c = ' ' || c = '\t'

/-- A digit of the given base. DESIGN CHOICE (log 8): hexadecimal digits of either case. -/
def digitValue (base : Nat) (c : Char) : Option Nat :=
  let d :=
    if '0' ≤ c ∧ c ≤ '9' then c.toNat - 48
    else if 'a' ≤ c ∧ c ≤ 'f' then c.toNat - 87
    else if 'A' ≤ c ∧ c ≤ 'F' then c.toNat - 55
    else base
  if d < base then some d else none

/-- Digits of the given base, the most significant first, after `high`. -/
def digitsValue (base : Nat) : List Char → Nat → Option Nat
  | [], high => some high
  | c :: cs, high => (digitValue base c).bind fun d => digitsValue base cs (high * base + d)

/-- `0x` and at least one hexadecimal digit; how many is DESIGN CHOICE (log 8). -/
def hexNumber : List Char → Option Nat
  | '0' :: 'x' :: c :: cs => digitsValue 16 (c :: cs) 0
  | _ => none

/-- An integer in decimal, `0x` hex or `0b` binary, the forms R71 gives for `<value>`. DESIGN CHOICE (log 8): any number of
digits from one up, leading zeros among them; `x` and `b` small. -/
def number : List Char → Option Nat
  | '0' :: 'x' :: cs => hexNumber ('0' :: 'x' :: cs)
  | '0' :: 'b' :: c :: cs => digitsValue 2 (c :: cs) 0
  | c :: cs => digitsValue 10 (c :: cs) 0
  | [] => none

/-- The text without the spaces around it. -/
def trimSpaces (cs : List Char) : List Char := ((cs.dropWhile isSpace).reverse.dropWhile isSpace).reverse

/-- The line without its comment: `;` starts one (R71). -/
def withoutComment (line : List Char) : List Char := trimSpaces (line.takeWhile (· ≠ ';'))

/-- `<value>, <bitCount>` of a WRITE, each within its range (R71). DESIGN CHOICE (log 8): `<bitCount>`, of which R71 says only
that it is an integer `0 .. 63`, is written in any of the three radixes R71 gives for `<value>`. -/
def assembleWrite (operands : List Char) : AsmLine :=
  match number (trimSpaces (operands.takeWhile (· ≠ ','))), number (trimSpaces ((operands.dropWhile (· ≠ ',')).drop 1)) with
  | some value, some bitCount =>
    if value < 2 ^ 32 ∧ bitCount < 64 then .word (encode (.write (BitVec.ofNat 32 value) bitCount)) else .malformed
  | _, _ => .malformed

/-- `<hex40>`, the raw 40-bit word (R71). DESIGN CHOICE (log 8): R71 does not say how many digits it has; here any number of
them from one up, with a value below `2^40`, after `0x`. -/
def assembleRaw (operands : List Char) : AsmLine :=
  match hexNumber operands with
  | some w => if w < 2 ^ 40 then .word (BitVec.ofNat 40 w) else .malformed
  | none => .malformed

/-- One line (R71). There are no pseudo-instructions (R72). DESIGN CHOICE (log 8): names in the capitals of R71, spaces as
`isSpace` has them, a line without a command is no word, and a line that is none of R71's forms is malformed. -/
def assembleLine (line : List Char) : AsmLine :=
  let text := withoutComment line
  let name := text.takeWhile (fun c => !isSpace c)
  let operands := trimSpaces (text.dropWhile (fun c => !isSpace c))
  if text = [] then .blank
  else if name = ['W', 'R', 'I', 'T', 'E'] then assembleWrite operands
  else if name = ['R', 'E', 'S', 'E', 'T'] ∧ operands = [] then .word (encode .reset)
  else if name = ['D', 'R', 'A', 'I', 'N'] ∧ operands = [] then .word (encode .drain)
  else if name = ['.', 'c', 'm', 'd'] then assembleRaw operands
  else .malformed

end Sys2Proof.Machine
end

