-- ==== Sys2Proof/Safety.lean ====
section
/-! DEFINITION. The terms claims use: the block's invariants (R21, R24), the field that stands for the paired reader (R16), the wire format as a stream of bits (R33), and the block as a machine over that stream (R50). -/

namespace Sys2Proof.Machine

/-- The cursor's legal values (R21). -/
abbrev State.CursorInRange (s : State) : Prop := s.cursor ≤ s.capacityBits

/-- The zero invariant: `Bit(k) = 0` for every `k` with `cursor <= k < 64*W` (R24). -/
abbrev State.ZeroBeyondCursor (s : State) : Prop :=
  ∀ k < 64 * s.wordCount, s.cursor ≤ k → s.storage.bitAt k = false

/-- Storage is in canonical form and lists only bytes of its `W` words (R13, R22). -/
abbrev State.StorageInForm (s : State) : Prop :=
  s.storage.wf ∧ ∀ c ∈ s.storage, c.1 < 8 * s.wordCount

/-- A response of the shape of R66: `data` is a sequence of exactly `len` bytes, `len` is at most `CAP_BYTES`, and only an
OK response carries any. -/
abbrev Response.InShape (r : Response) (capBytes : Nat) : Prop :=
  r.data.length = r.len ∧ r.len ≤ capBytes ∧ (r.status ≠ .ok → r.len = 0)

/-- The invariants of the block together. -/
abbrev State.Legal (s : State) : Prop :=
  1 ≤ s.capBytes ∧ s.CursorInRange ∧ s.ZeroBeyondCursor ∧ s.StorageInForm ∧ ∀ r ∈ s.responses, r.InShape s.capBytes

/-- Two states of one block: they differ at most in the exchange with the host. -/
abbrev SameBlock (s t : State) : Prop :=
  s.capBytes = t.capBytes ∧ s.cursor = t.cursor ∧ s.storage = t.storage

/-- The number whose bit `i` is `bit i`, for `i < n`. -/
def bitsValue (bit : Nat → Bool) : Nat → Nat
  | 0 => 0
  | n + 1 => bitsValue bit n + if bit n then 2 ^ n else 0

/-- `Field(k, n)`, what the excluded paired reader reads (R16). -/
def State.field (s : State) (k n : Nat) : Nat := bitsValue (fun i => s.storage.bitAt (k + i)) n

/-- The low `n` bits of a value, the least significant first (R41). -/
def fieldBits (value : FieldValue) (n : Nat) : List Bool := (List.range n).map fun i => value.getLsbD i

/-- The sum of the widths of a list of fields (R32). -/
def totalWidth (fields : List (FieldValue × Nat)) : Nat := (fields.map (·.2)).sum

/-- The wire format: the fields in order, no padding between them (R33). -/
def wireFormat (fields : List (FieldValue × Nat)) : List Bool := fields.flatMap fun f => fieldBits f.1 f.2

/-- The bytes of a stream: bit `i` of byte `j` is bit `8j + i` of the stream, zero past its end (R40, R106). -/
def streamBytes (bits : List Bool) : List Byte :=
  (List.range ((bits.length + 7) / 8)).map fun j => BitVec.ofNat 8 (bitsValue (fun i => bits.getD (8 * j + i) false) 8)

/-- The block holds the stream `bits`: the cursor is its length, storage is the stream followed by zeros (R33). -/
abbrev State.Holds (s : State) (bits : List Bool) : Prop :=
  s.cursor = bits.length ∧ ∀ k < 64 * s.wordCount, s.storage.bitAt k = bits.getD k false

/-- What each command does to the stream, and its response: the block without words, shifts and masks. -/
def streamCommand (capBytes : Nat) (bits : List Bool) : Instr → List Bool × Response
  | .write value n =>
    if n = 0 ∨ 32 < n then (bits, { status := .invalidArgument, len := 0, data := [] })
    else if 8 * capBytes < bits.length + n then (bits, { status := .bufferExhausted, len := 0, data := [] })
    else (bits ++ fieldBits value n, { status := .ok, len := 0, data := [] })
  | .reset => ([], { status := .ok, len := 0, data := [] })
  | .drain => (bits, { status := .ok, len := (bits.length + 7) / 8, data := streamBytes bits })
  | .reserved => (bits, { status := .illegalCommand, len := 0, data := [] })

/-- The left fold of `streamCommand` over a sequence of command words (R50). -/
def streamRun (capBytes : Nat) : List Bool → List CmdWord → List Bool × List Response
  | bits, [] => (bits, [])
  | bits, w :: ws =>
    let now := streamCommand capBytes bits (decode w)
    let later := streamRun capBytes now.1 ws
    (later.1, now.2 :: later.2)

/-- The state in which the host is about to issue the command words `ws`, in order and nothing else (R151). -/
def State.issuing (s : State) (ws : List CmdWord) : State := { s with inputs := ws.map HostEvent.command }

/-- One more command and its response: a WRITE that returned OK adds its field, a RESET starts over (R32, R33). -/
def acceptCommand (fields : List (FieldValue × Nat)) (answered : CmdWord × Response) : List (FieldValue × Nat) :=
  match decode answered.1 with
  | .write value n => if answered.2.status = .ok then fields ++ [(value, n)] else fields
  | .reset => []
  | .drain => fields
  | .reserved => fields

/-- The fields of the WRITEs that returned OK since the last reset, from the commands and their responses (R32, R33). -/
def acceptedFields (answered : List (CmdWord × Response)) : List (FieldValue × Nat) :=
  answered.foldl acceptCommand []

/-- The statuses R91 gives for a sequence of WRITEs of the given widths, `used` bits being taken already. -/
def boundaryStatuses (capacityBits : Nat) : Nat → List Nat → List Status
  | _, [] => []
  | used, n :: ns =>
    if used + n ≤ capacityBits then .ok :: boundaryStatuses capacityBits (used + n) ns
    else .bufferExhausted :: boundaryStatuses capacityBits used ns

end Sys2Proof.Machine
end

