-- ==== Sys2Proof/Certificates/Slice0/Obligations.lean ====
section
/-! DEFINITION. The statements about the block, for the provers. Each docstring names the rule of spec/ it rests on, and, where the spec marks that rule as its own decision or derivation, or the model chose, says so. -/

open Sys2Proof Sys2Proof.Machine

/-! ### The command word -/

/-- The words of R71, R73 and of vectors RS4, DR5, DC1 to DC4 decode to their commands (the encoding is the spec's decision D2). -/
def Obligations.SpecWordsDecode : Prop :=
  decode 0x0300000005#40 = .write 5#32 3 ∧ decode 0x0200000003#40 = .write 3#32 2 ∧
  decode 0x20FFFFFFFF#40 = .write 0xFFFFFFFF#32 32 ∧ decode 0x2100000007#40 = .write 7#32 33 ∧
  decode 0x0000000000#40 = .write 0#32 0 ∧ decode 0x3FFFFFFFFF#40 = .write 0xFFFFFFFF#32 63 ∧
  decode 0x4000000000#40 = .reset ∧ decode 0x7FFFFFFFFF#40 = .reset ∧
  decode 0x8000000000#40 = .drain ∧ decode 0xBFFFFFFFFF#40 = .drain ∧
  decode 0xC000000000#40 = .reserved ∧ decode 0xFFFFFFFFFF#40 = .reserved

/-- Decoding the encoding of a well-formed command gives the command back, for every value and every bitCount 0..63 (R60, R61; D2). -/
def Obligations.DecodeEncodeRoundTrip : Prop :=
  ∀ i : Instr, i.WellFormed → decode (encode i) = i

/-- Two words are the same command exactly when their `op` fields agree and, for WRITE, the whole words do: RESET, DRAIN
and the reserved word ignore bits 37..0 (R64, R65; decisions D4, D5) and WRITE ignores none. -/
def Obligations.DecodeReadsExactlyTheMeaningfulBits : Prop :=
  ∀ w w' : CmdWord, decode w = decode w' ↔ opField w = opField w' ∧ (opField w = 0b00#2 → w = w')

/-- Every word decodes to a well-formed command (R69: no word is invalid), whose encoding is the word itself for WRITE
and the word with bits 37..0 cleared for RESET and DRAIN (R64, R71; D2, D5). For the reserved word, which R71 writes raw, the
cleared form is the model's (log 11). -/
def Obligations.EncodeDecodeIsCanonical : Prop :=
  ∀ w : CmdWord, (decode w).WellFormed ∧
    encode (decode w) = if opField w = 0b00#2 then w else opField w ++ 0#38

/-- The word of a WRITE is `(bitCount << 32) | value` (R73, derived in the spec from R60). -/
def Obligations.WriteWordArithmetic : Prop :=
  ∀ (value : FieldValue) (n : Nat), n < 64 →
    (encode (.write value n)).toNat = (n <<< 32 ||| value.toNat)

/-- The assembler gives the words of R71 and R73 (decision D19): the tabled forms, a comment, a value in each radix, a raw
word, and no word for a bitCount past 63. Where spaces may stand, and that such a line is rejected, are the model's (log 8). -/
def Obligations.AssemblerWritesTheSpecWords : Prop :=
  assembleLine ['W','R','I','T','E',' ','0','b','1','0','1',',',' ','3'] = .word 0x0300000005#40 ∧
  assembleLine ['W','R','I','T','E',' ','0','x','F','F',',',' ','8',' ',';',' ','x'] = .word 0x08000000FF#40 ∧
  assembleLine ['W','R','I','T','E',' ','7',',',' ','3','3'] = .word 0x2100000007#40 ∧
  assembleLine ['W','R','I','T','E',' ','7',',',' ','6','4'] = .malformed ∧
  assembleLine ['R','E','S','E','T'] = .word 0x4000000000#40 ∧
  assembleLine ['D','R','A','I','N'] = .word 0x8000000000#40 ∧
  assembleLine ['.','c','m','d',' ','0','x','B','F','F','F','F','F','F','F','F','F'] = .word 0xBFFFFFFFFF#40

/-! ### The step -/

/-- A step takes the oldest word the host issued, decodes it and performs it on the rest of the state (R50, R69); the word
placed by `withFetchWord` is the next one, read as `decodeTableWord` reads it (the model's form of the port: log 2). -/
def Obligations.StepRunsTheIssuedCommand : Prop :=
  (∀ (s : State) (w : CmdWord) (rest : List HostEvent), s.inputs = .command w :: rest →
    step s = exec (decode w) { s with inputs := rest }) ∧
  (∀ (s : State) (w : Nat), w < 2 ^ 40 →
    step (s.withFetchWord 40 w) = exec (decode (BitVec.ofNat 40 w)) s ∧
    decodeTableWord 40 w = some (decode (BitVec.ofNat 40 w)))

/-- With no event the block is idle and its state persists (R135; D18). After a loss of power the block is in its power-on
state, with the same capacity (R135, R140; D9); that the host keeps its record is the model's choice (log 5). -/
def Obligations.IdleAndPowerCycleSteps : Prop :=
  (∀ s : State, s.inputs = [] → step s = .next s) ∧
  (∀ (s : State) (rest : List HostEvent), s.inputs = .powerCycle :: rest →
    step s = .next { State.powerOn s.capBytes with inputs := rest, responses := s.responses })

/-- Overlapping commands have no transition: the step is refused by name (R145, D14). The form of the event is the
model's choice (log 4). -/
def Obligations.OverlappingCommandsAreRefused : Prop :=
  ∀ (s : State) (first second : CmdWord) (rest : List HostEvent),
    s.inputs = .overlapping first second :: rest → step s = .refused .overlappingCommands

/-- From every state with the block's invariants a step answers a next state, unless the host overlaps commands: no
storage index ever leaves the storage (R49), and every command has exactly one step (R151). Of the commands, only DRAIN,
and only with a cursor past the capacity, can stop in any state at all (the checked index is the model's: log 6). -/
def Obligations.LegalStatesNeverFault : Prop :=
  (∀ s : State, s.Legal → (∃ t, step s = .next t) ∨
    ∃ first second rest, s.inputs = .overlapping first second :: rest) ∧
  (∀ (s : State) (i : Instr), i ≠ .drain → ∃ t, exec i s = .next t) ∧
  (∀ s : State, s.CursorInRange → ∃ t, exec .drain s = .next t)

/-- The response depends only on the block, and so does the block's next state: two states of one block take the same
command to two states of one block, with the same response (R50: the response reflects the commands before it and
nothing else; D14). A fault is common to both, too (log 6). -/
def Obligations.CommandDependsOnlyOnTheBlock : Prop :=
  ∀ (i : Instr) (s t : State), SameBlock s t →
    (∀ f, exec i s = .fault f → exec i t = .fault f) ∧
    (∀ s', exec i s = .next s' → ∃ t' r, exec i t = .next t' ∧ SameBlock s' t' ∧
      s'.responses = s.responses ++ [r] ∧ t'.responses = t.responses ++ [r])

/-! ### Reset values and invariants -/

/-- R31: after power-on and after a RESET command the cursor is 0, every storage word is zero, the padding bits are zero,
and the capacity is the constant it was. For every capacity; a RESET from any state at all. -/
def Obligations.ResetValues : Prop :=
  (∀ capBytes : Nat, 1 ≤ capBytes →
    (State.powerOn capBytes).cursor = 0 ∧
    (∀ w < (State.powerOn capBytes).wordCount, (State.powerOn capBytes).storage.wordAt w = 0#64) ∧
    (∀ k, (State.powerOn capBytes).capacityBits ≤ k → k < 64 * (State.powerOn capBytes).wordCount →
      (State.powerOn capBytes).storage.bitAt k = false) ∧
    (State.powerOn capBytes).capacityBits = 8 * capBytes) ∧
  (∀ s : State, ∃ t, exec .reset s = .next t ∧
    t.cursor = 0 ∧ (∀ w < s.wordCount, t.storage.wordAt w = 0#64) ∧
    (∀ k, s.capacityBits ≤ k → k < 64 * s.wordCount → t.storage.bitAt k = false) ∧
    t.capacityBits = s.capacityBits)

/-- The power-on state of every capacity has the block's invariants, and so has `State.reset`, which is one of them; which
one is the model's choice (log 1), and nothing of it enters but that it is at least 1 (R6). -/
def Obligations.PowerOnIsLegal : Prop :=
  (∀ capBytes : Nat, 1 ≤ capBytes → (State.powerOn capBytes).Legal) ∧
  (∃ capBytes, 1 ≤ capBytes ∧ State.reset = State.powerOn capBytes) ∧ State.reset.Legal

/-- Every step keeps the block's invariants: the cursor's range (R21), the zero invariant (R24, R87), the storage's
canonical form (the model's: log 7), the shape of the responses (R66). -/
def Obligations.StepKeepsLegal : Prop :=
  ∀ s t : State, s.Legal → step s = .next t → t.Legal

/-- The capacity is a constant: no step of any kind changes it (R6, R20, R143). -/
def Obligations.CapacityNeverChanges : Prop :=
  ∀ s t : State, step s = .next t → t.capBytes = s.capBytes

/-- The cursor "advances only by successful WRITEs and returns to 0 only by RESET or power-on reset" (R25; D12): each
step leaves it alone, or is such a WRITE, or is one of those two. In every state. -/
def Obligations.CursorMovesOnlyByWriteAndReset : Prop :=
  ∀ s t : State, step s = .next t →
    t.cursor = s.cursor ∨
    (∃ w rest value n, s.inputs = .command w :: rest ∧ decode w = .write value n ∧ 1 ≤ n ∧ n ≤ 32 ∧
      t.cursor = s.cursor + n ∧ t.cursor ≤ s.capacityBits) ∨
    (t.cursor = 0 ∧ ∃ w rest, s.inputs = .command w :: rest ∧ decode w = .reset) ∨
    (t.cursor = 0 ∧ ∃ rest, s.inputs = .powerCycle :: rest)

/-- No step writes a one into a bit at or past the capacity, the padding bits among them (R23, derived in the spec from
R31, R86 and R106). In every state. -/
def Obligations.PaddingIsNeverWritten : Prop :=
  ∀ s t : State, step s = .next t →
    ∀ k, s.capacityBits ≤ k → t.storage.bitAt k = true → s.storage.bitAt k = true

/-- The cursor fits a register of CW bits and each response length one of LW bits, and these are the least such widths
(R10, derived in the spec from R7). -/
def Obligations.RegistersFitTheirWidths : Prop :=
  ∀ s : State, s.Legal →
    s.cursor < 2 ^ s.cursorWidth ∧ (∀ r ∈ s.responses, r.len < 2 ^ s.lenWidth) ∧
    (∀ width, s.capacityBits < 2 ^ width → s.cursorWidth ≤ width) ∧
    (∀ width, s.capBytes < 2 ^ width → s.lenWidth ≤ width)

/-! ### Responses and errors -/

/-- The status codes of R67, and the commands that produce each: the reserved word alone gives ILLEGAL_COMMAND, WRITE
alone the two errors (R120; the codes are decision D3). -/
def Obligations.StatusCodesAsTabled : Prop :=
  Status.ok.code = 0#2 ∧ Status.invalidArgument.code = 1#2 ∧ Status.bufferExhausted.code = 2#2 ∧
  Status.illegalCommand.code = 3#2 ∧
  ∀ (i : Instr) (s t : State), exec i s = .next t → ∀ r, t.responses = s.responses ++ [r] →
    (r.status.code = 3#2 ↔ i = .reserved) ∧
    (r.status.code = 1#2 ∨ r.status.code = 2#2 → ∃ value n, i = .write value n)

/-- Every command answers exactly one response, whose data are exactly `len` bytes; `len` is 0 for every command but a
DRAIN (R66; decision D3). In every state. -/
def Obligations.EveryCommandAnswersOnce : Prop :=
  ∀ (i : Instr) (s t : State), exec i s = .next t →
    t.inputs = s.inputs ∧ ∃ r, t.responses = s.responses ++ [r] ∧ r.data.length = r.len ∧ (i ≠ .drain → r.len = 0)

/-- "A later WRITE or RESET does not change a response already given" (R107; decision D10): no step of
any kind does. That a power cycle does not either is the model's: the host keeps its record (log 5). -/
def Obligations.GivenResponsesNeverChange : Prop :=
  ∀ s t : State, step s = .next t → s.responses <+: t.responses

/-- A WRITE whose bitCount is 0 or above 32 fails with InvalidArgument (status 1) whatever the cursor, and the state is
unchanged but for the response given (R121 for 0 and 33..63, R123; that a number above 63, which no command word holds, is
turned away too is the model's: log 10). No other command and no other width gives that status (R120 and R67, which the spec
marks as decision D3). -/
def Obligations.WriteRejectsBadBitCount : Prop :=
  (∀ (s : State) (value : FieldValue) (n : Nat), n = 0 ∨ 32 < n →
    ∃ r, exec (.write value n) s = .next { s with responses := s.responses ++ [r] } ∧
      r.status = .invalidArgument ∧ r.status.code = 1#2 ∧ r.len = 0 ∧ r.data = []) ∧
  (∀ (i : Instr) (s t : State) (r : Response), exec i s = .next t → t.responses = s.responses ++ [r] →
    r.status = .invalidArgument → ∃ value n, i = .write value n ∧ (n = 0 ∨ 32 < n))

/-- R122: a WRITE of a legal width that does not fit fails with BufferExhausted (status 2); the buffer is left unchanged. -/
def Obligations.WriteRejectsOverflow : Prop :=
  ∀ (s : State) (value : FieldValue) (n : Nat), 1 ≤ n → n ≤ 32 → 8 * s.capBytes < s.cursor + n →
    ∃ r, exec (.write value n) s = .next { s with responses := s.responses ++ [r] } ∧
      r.status = .bufferExhausted ∧ r.status.code = 2#2 ∧ r.len = 0 ∧ r.data = []

/-- R123: when a command's status is other than OK, the cursor and every storage bit are unchanged, and the response
carries the status, `len = 0` and no data. In every state, for every command. -/
def Obligations.FailedCommandHasNoEffect : Prop :=
  ∀ (i : Instr) (s t : State) (r : Response), exec i s = .next t → t.responses = s.responses ++ [r] → r.status ≠ .ok →
    t.cursor = s.cursor ∧ (∀ k, t.storage.bitAt k = s.storage.bitAt k) ∧ t.storage = s.storage ∧
    t.capBytes = s.capBytes ∧ t.inputs = s.inputs ∧ r.len = 0 ∧ r.data = []

/-- The command after a failed one is performed exactly as if the failed one had never been issued: same block, same
response (R92 and R127, which the spec derives from R123). -/
def Obligations.CommandAfterFailureActsAsIfNeverIssued : Prop :=
  ∀ (i j : Instr) (s t u : State) (r : Response), exec i s = .next t → t.responses = s.responses ++ [r] →
    r.status ≠ .ok → exec j s = .next u →
    ∃ v a, exec j t = .next v ∧ SameBlock u v ∧ u.responses = s.responses ++ [a] ∧ v.responses = t.responses ++ [a]

/-- The reserved word: status ILLEGAL_COMMAND (code 3), no state change, for every one of the 2^38 words (R65, R124;
decision D4). -/
def Obligations.ReservedAnswersIllegalCommand : Prop :=
  (∀ s : State, ∃ r, exec .reserved s = .next { s with responses := s.responses ++ [r] } ∧
    r.status = .illegalCommand ∧ r.status.code = 3#2 ∧ r.len = 0 ∧ r.data = []) ∧
  (∀ (s : State) (w : CmdWord) (rest : List HostEvent), s.inputs = .command w :: rest → opField w = 0b11#2 →
    step s = exec .reserved { s with inputs := rest })

/-! ### WRITE -/

/-- R82 to R85: a WRITE of a legal width that fits runs; with `m = value & (2^n - 1)` in 64 bits it ORs `m << shift` into
the current word, `m >> (64 - shift)` into the next when `shift + n > 64` (the amount then is in 1..31), leaves the next
word alone otherwise and every other word always, and the cursor advances by `n` to at most the capacity. -/
def Obligations.WriteDepositsIntoWords : Prop :=
  ∀ (s : State) (value : FieldValue) (n : Nat), 1 ≤ n → n ≤ 32 → s.cursor + n ≤ 8 * s.capBytes →
    ∃ t r, exec (.write value n) s = .next t ∧ t.responses = s.responses ++ [r] ∧ r.status = .ok ∧
      let m : Word := BitVec.ofNat 64 (value.toNat &&& (2 ^ n - 1))
      let shift := s.cursor % 64
      let w := s.cursor / 64
      t.storage.wordAt w = s.storage.wordAt w ||| m <<< shift ∧
      (64 < shift + n → 1 ≤ 64 - shift ∧ 64 - shift ≤ 31 ∧
        t.storage.wordAt (w + 1) = s.storage.wordAt (w + 1) ||| m >>> (64 - shift)) ∧
      (shift + n ≤ 64 → t.storage.wordAt (w + 1) = s.storage.wordAt (w + 1)) ∧
      (∀ v, v ≠ w → v ≠ w + 1 → t.storage.wordAt v = s.storage.wordAt v) ∧
      t.cursor = s.cursor + n ∧ t.cursor ≤ 8 * t.capBytes

/-- A WRITE of field `m` with `n` bits at cursor `c` puts bit `i` of `m` at storage bit offset `c + i`, and the next field
starts right after it (R41). From the zero invariant, the other bits of storage are unchanged and both word indexes are
below W (R86, which the spec derives from R82, R83, R85, R24 and R8). -/
def Obligations.WriteSetsExactlyItsBits : Prop :=
  ∀ (s : State) (value : FieldValue) (n : Nat), s.ZeroBeyondCursor → 1 ≤ n → n ≤ 32 → s.cursor + n ≤ 8 * s.capBytes →
    s.cursor / 64 < s.wordCount ∧ (64 < s.cursor % 64 + n → s.cursor / 64 + 1 < s.wordCount) ∧
    ∃ t, exec (.write value n) s = .next t ∧ t.cursor = s.cursor + n ∧
      (∀ i < n, t.storage.bitAt (s.cursor + i) = value.getLsbD i) ∧
      (∀ k, k < s.cursor ∨ s.cursor + n ≤ k → t.storage.bitAt k = s.storage.bitAt k)

/-- What a WRITE leaves unchanged, in every state and for every operand: the capacity, the host's events, the responses
before its own; every storage bit outside offsets `cursor .. cursor + n - 1`, and so every byte outside bytes
`cursor div 8 .. (cursor + n - 1) div 8`; all of storage and the cursor unless its status is OK. -/
def Obligations.WriteFrame : Prop :=
  ∀ (s t : State) (value : FieldValue) (n : Nat), exec (.write value n) s = .next t →
    t.capBytes = s.capBytes ∧ t.inputs = s.inputs ∧
    (∀ k, k < s.cursor ∨ s.cursor + n ≤ k → t.storage.bitAt k = s.storage.bitAt k) ∧
    (∀ j, j < s.cursor / 8 ∨ s.cursor + n ≤ 8 * j → t.storage.byteAt j = s.storage.byteAt j) ∧
    ∃ r, t.responses = s.responses ++ [r] ∧
      (r.status = .ok → t.cursor = s.cursor + n) ∧
      (r.status ≠ .ok → t.cursor = s.cursor ∧ ∀ j, t.storage.byteAt j = s.storage.byteAt j)

/-- R88: where the zero invariant holds, the ORs of a WRITE meet only zero bits, so they equal a plain store of the field
bits: clearing those bits first gives the same words. -/
def Obligations.OrIsAPlainStore : Prop :=
  ∀ (s : State) (value : FieldValue) (n : Nat), s.ZeroBeyondCursor → 1 ≤ n → n ≤ 32 → s.cursor + n ≤ 8 * s.capBytes →
    ∃ t, exec (.write value n) s = .next t ∧
      let m : Word := BitVec.ofNat 64 (value.toNat &&& (2 ^ n - 1))
      let ones : Word := BitVec.ofNat 64 (2 ^ n - 1)
      let shift := s.cursor % 64
      let w := s.cursor / 64
      s.storage.wordAt w &&& (ones <<< shift) = 0#64 ∧
      (∀ b < shift, (m <<< shift).getLsbD b = false) ∧
      t.storage.wordAt w = (s.storage.wordAt w &&& ~~~(ones <<< shift)) ||| m <<< shift ∧
      (64 < shift + n → s.storage.wordAt (w + 1) = 0#64 ∧ t.storage.wordAt (w + 1) = m >>> (64 - shift))

/-- Raw fields read back: after a WRITE of `v` in `n` bits, `Field(c, n) = v mod 2^n`, so `v` itself when it fits
(R90, derived in the spec from R86). -/
def Obligations.FieldReadsBack : Prop :=
  ∀ (s : State) (value : FieldValue) (n : Nat), s.ZeroBeyondCursor → 1 ≤ n → n ≤ 32 → s.cursor + n ≤ 8 * s.capBytes →
    ∃ t, exec (.write value n) s = .next t ∧ t.field s.cursor n = value.toNat % 2 ^ n ∧
      (value.toNat < 2 ^ n → t.field s.cursor n = value.toNat)

/-- A field that lies below the cursor is changed by no command but RESET (R90, its last sentence, derived in the spec
from R86; R107 for DRAIN). In every state. -/
def Obligations.WrittenFieldsStay : Prop :=
  ∀ (i : Instr) (s t : State) (k n : Nat), i ≠ .reset → exec i s = .next t → k + n ≤ s.cursor →
    t.field k n = s.field k n

/-- A Quantizer code that arrives through the sink path: for a rounded integer `r`, which may be negative, presented as
`r mod 2^32`, the field stored is `r mod 2^n` (R89, derived in the spec from R85; the host's conversion is decision D22). -/
def Obligations.QuantizerCodeIsStored : Prop :=
  ∀ (s : State) (r : Int) (n : Nat), s.ZeroBeyondCursor → 1 ≤ n → n ≤ 30 → s.cursor + n ≤ 8 * s.capBytes →
    ∃ t, exec (.write (BitVec.ofNat 32 (r % 2 ^ 32).toNat) n) s = .next t ∧ (t.field s.cursor n : Int) = r % 2 ^ n

/-! ### RESET and DRAIN -/

/-- RESET in any state: it answers OK, the cursor is 0, every word of storage is zero; the capacity and the host's events
are unchanged, and so is every byte outside the `W` words (R101, R102; decisions D16, D17). -/
def Obligations.ResetClearsEveryWord : Prop :=
  ∀ s : State, ∃ t r, exec .reset s = .next t ∧ t.responses = s.responses ++ [r] ∧
    r.status = .ok ∧ r.len = 0 ∧ r.data = [] ∧
    t.cursor = 0 ∧ (∀ w < s.wordCount, t.storage.wordAt w = 0#64) ∧
    t.capBytes = s.capBytes ∧ t.inputs = s.inputs ∧
    (∀ j, 8 * s.wordCount ≤ j → t.storage.byteAt j = s.storage.byteAt j)

/-- RESET leaves a block that nothing tells from one just powered on: the state IS the power-on state of its capacity,
but for the exchange with the host (R103 and R142, derived in the spec from R100, R101 and R31). -/
def Obligations.ResetEqualsPowerOn : Prop :=
  ∀ s : State, s.StorageInForm → ∃ r, exec .reset s =
    .next { State.powerOn s.capBytes with inputs := s.inputs, responses := s.responses ++ [r] } ∧ r.status = .ok

/-- For any sequence of writes, and in any state, RESET followed by DRAIN yields zero length (R103, derived in the spec). -/
def Obligations.ResetThenDrainIsEmpty : Prop :=
  ∀ s t : State, exec .reset s = .next t →
    ∃ u r, exec .drain t = .next u ∧ u.responses = t.responses ++ [r] ∧ r.status = .ok ∧ r.len = 0 ∧ r.data = []

/-- R47: DRAIN has no side effect on any state and two in a row answer the same; two RESETs in a row leave the state the
first one left; each successful WRITE advances the cursor, and a WRITE has no effect beyond the buffer and the cursor. -/
def Obligations.SideEffectsAndIdempotency : Prop :=
  (∀ s t : State, exec .drain s = .next t → SameBlock s t ∧ t.inputs = s.inputs ∧
    ∃ u r, exec .drain t = .next u ∧ t.responses = s.responses ++ [r] ∧ u.responses = t.responses ++ [r]) ∧
  (∀ s t : State, exec .reset s = .next t →
    ∃ u, exec .reset t = .next u ∧ SameBlock t u ∧ u.inputs = t.inputs) ∧
  (∀ (s t : State) (value : FieldValue) (n : Nat) (r : Response), exec (.write value n) s = .next t →
    t.responses = s.responses ++ [r] →
    t.capBytes = s.capBytes ∧ t.inputs = s.inputs ∧ (r.status = .ok → s.cursor < t.cursor))

/-- R105 and R106: with the cursor in range DRAIN runs; `len = ceil(cursor/8)` is at most CAP_BYTES, `data[j] = Byte(j)`
for `j < len`, and, from the zero invariant, the trailing bits of the last byte are zero. Nothing else changes. -/
def Obligations.DrainReturnsTheWrittenPrefix : Prop :=
  ∀ s : State, s.CursorInRange → ∃ r, exec .drain s = .next { s with responses := s.responses ++ [r] } ∧
    r.status = .ok ∧ r.len = (s.cursor + 7) / 8 ∧ r.len ≤ s.capBytes ∧ r.data.length = r.len ∧
    (∀ j < r.len, r.data[j]? = some (s.storage.byteAt j)) ∧
    (s.ZeroBeyondCursor → s.cursor % 8 ≠ 0 →
      ∀ b, s.cursor % 8 ≤ b → b < 8 → (s.storage.byteAt (r.len - 1)).getLsbD b = false)

/-- The exact cursor is hidden from DRAIN but not from WRITE: two blocks with equal storage bits whose cursors end in the
same byte answer DRAIN alike, yet the WRITE that just fits the one fails in the other (R30; the second half for a
remaining room of at most 32 bits, one WRITE). -/
def Obligations.DrainHidesTheExactCursor : Prop :=
  ∀ s t : State, s.CursorInRange → t.CursorInRange → s.capBytes = t.capBytes →
    (∀ k < 64 * s.wordCount, s.storage.bitAt k = t.storage.bitAt k) → (s.cursor + 7) / 8 = (t.cursor + 7) / 8 →
    (∃ s' t' r, exec .drain s = .next s' ∧ exec .drain t = .next t' ∧
      s'.responses = s.responses ++ [r] ∧ t'.responses = t.responses ++ [r]) ∧
    (s.cursor < t.cursor → 8 * s.capBytes ≤ s.cursor + 32 →
      ∃ s' t' r r', exec (.write 0#32 (8 * s.capBytes - s.cursor)) s = .next s' ∧
        exec (.write 0#32 (8 * s.capBytes - s.cursor)) t = .next t' ∧
        s'.responses = s.responses ++ [r] ∧ t'.responses = t.responses ++ [r'] ∧
        r.status = .ok ∧ r'.status = .bufferExhausted)

/-! ### Storage -/

/-- The three views of one storage: `Bit(k)` is bit `k mod 64` of word `k div 64` and bit `k mod 8` of byte `k div 8`, and
byte `j` is bits `8*(j mod 8)+7 .. 8*(j mod 8)` of word `j div 8` (R40; the word order is decision D8). -/
def Obligations.BitByteWordMapping : Prop :=
  (∀ (m : Memory) (k : Nat), m.bitAt k = (m.wordAt (k / 64)).getLsbD (k % 64) ∧
    m.bitAt k = (m.byteAt (k / 8)).getLsbD (k % 8)) ∧
  (∀ (m : Memory) (j : Nat), m.byteAt j = (m.wordAt (j / 8)).extractLsb' (8 * (j % 8)) 8)

/-- Two storages in canonical form that agree on every bit are the same data (the model's form of storage: log 7). -/
def Obligations.EqualBitsAreEqualStorage : Prop :=
  ∀ m m' : Memory, m.wf → m'.wf → (∀ k, m.bitAt k = m'.bitAt k) → m = m'

/-! ### Runs -/

/-- The block refines a machine over a stream of bits that knows no words, shifts or masks: from a state that holds the
stream, every command answers the response of the stream machine and leaves a state that holds the stream it leaves
(R33, R50, with R82 to R85, R100, R104; the stream machine is the model's reading of the wire format). -/
def Obligations.BlockRefinesTheBitStream : Prop :=
  ∀ (i : Instr) (s : State) (bits : List Bool), s.CursorInRange → s.Holds bits →
    ∃ t, exec i s = .next t ∧ t.Holds (streamCommand s.capBytes bits i).1 ∧ t.CursorInRange ∧
      t.responses = s.responses ++ [(streamCommand s.capBytes bits i).2] ∧
      t.capBytes = s.capBytes ∧ t.inputs = s.inputs

/-- A run of k commands from power-on ends after k steps with k responses, and they are the left fold of the stream
machine over the commands, as the final state is (R50 and R151; decision D14). For every capacity and every sequence. -/
def Obligations.RunIsTheFoldOfItsCommands : Prop :=
  ∀ (capBytes : Nat) (ws : List CmdWord), 1 ≤ capBytes →
    ∃ t : State, Sys2Proof.core.run ws.length ((State.powerOn capBytes).issuing ws) = .next t ∧
      t.inputs = [] ∧ t.capBytes = capBytes ∧ t.responses.length = ws.length ∧
      t.responses = (streamRun capBytes [] ws).2 ∧ t.Holds (streamRun capBytes [] ws).1

/-- After a run from power-on the cursor is the sum of the bitCounts of the WRITEs that returned OK since the last reset
(R32, derived in the spec from R31, R84 and R123). -/
def Obligations.CursorIsTheSumOfAcceptedWidths : Prop :=
  ∀ (capBytes : Nat) (ws : List CmdWord) (t : State), 1 ≤ capBytes →
    Sys2Proof.core.run ws.length ((State.powerOn capBytes).issuing ws) = .next t →
    t.cursor = totalWidth (acceptedFields (ws.zip t.responses))

/-- After a run from power-on each field written since the last reset reads back masked at the sum of the widths before
it, and storage is exactly those fields from bit 0 on, followed by zeros (R33, derived in the spec from R24, R85, R86). -/
def Obligations.StorageIsTheAcceptedFields : Prop :=
  ∀ (capBytes : Nat) (ws : List CmdWord) (t : State), 1 ≤ capBytes →
    Sys2Proof.core.run ws.length ((State.powerOn capBytes).issuing ws) = .next t →
    (∀ before f after, acceptedFields (ws.zip t.responses) = before ++ f :: after →
      t.field (totalWidth before) f.2 = f.1.toNat % 2 ^ f.2) ∧
    (∀ k < 64 * t.wordCount, t.storage.bitAt k = (wireFormat (acceptedFields (ws.zip t.responses))).getD k false)

/-- The overflow boundary: from power-on with N bytes, WRITEs of legal widths succeed exactly as long as their total stays
within 8N bits, each one that would exceed it fails with BufferExhausted, and WRITEs that total at most 8N bits all
succeed, however they are split (R91, derived in the spec from R81, R84 and R32). -/
def Obligations.OverflowBoundary : Prop :=
  ∀ (capBytes : Nat) (fields : List (FieldValue × Nat)), 1 ≤ capBytes → (∀ f ∈ fields, 1 ≤ f.2 ∧ f.2 ≤ 32) →
    ∃ t : State, Sys2Proof.core.run fields.length
        ((State.powerOn capBytes).issuing (fields.map fun f => encode (.write f.1 f.2))) = .next t ∧
      t.responses.map (·.status) = boundaryStatuses (8 * capBytes) 0 (fields.map (·.2)) ∧
      (totalWidth fields ≤ 8 * capBytes → ∀ r ∈ t.responses, r.status = .ok)

/-- The same commands get the same responses after a RESET as from power-on (R103, derived in the spec): whatever the
state, the responses to any sequence issued after a RESET are those of the sequence from power-on. -/
def Obligations.ResetBlockAnswersAsAFreshOne : Prop :=
  ∀ (s t : State) (ws : List CmdWord), s.StorageInForm → exec .reset s = .next t →
    ∃ u v : State, Sys2Proof.core.run ws.length (t.issuing ws) = .next u ∧
      Sys2Proof.core.run ws.length ((State.powerOn s.capBytes).issuing ws) = .next v ∧
      SameBlock u v ∧ u.responses = t.responses ++ v.responses
end

