-- ==== Sys2Proof/Laws/State.lean ====
section
/-! SUPPORT. One lemma for each field of each named update of the state, true by unfolding. -/

namespace Sys2Proof.Machine

@[simp] theorem State.withInputs_capBytes (s : State) (rest : List HostEvent) : (s.withInputs rest).capBytes = s.capBytes := rfl
@[simp] theorem State.withInputs_cursor (s : State) (rest : List HostEvent) : (s.withInputs rest).cursor = s.cursor := rfl
@[simp] theorem State.withInputs_storage (s : State) (rest : List HostEvent) : (s.withInputs rest).storage = s.storage := rfl
@[simp] theorem State.withInputs_inputs (s : State) (rest : List HostEvent) : (s.withInputs rest).inputs = rest := rfl
@[simp] theorem State.withInputs_responses (s : State) (rest : List HostEvent) : (s.withInputs rest).responses = s.responses := rfl

@[simp] theorem State.issue_capBytes (s : State) (word : CmdWord) : (s.issue word).capBytes = s.capBytes := rfl
@[simp] theorem State.issue_cursor (s : State) (word : CmdWord) : (s.issue word).cursor = s.cursor := rfl
@[simp] theorem State.issue_storage (s : State) (word : CmdWord) : (s.issue word).storage = s.storage := rfl
@[simp] theorem State.issue_inputs (s : State) (word : CmdWord) : (s.issue word).inputs = .command word :: s.inputs := rfl
@[simp] theorem State.issue_responses (s : State) (word : CmdWord) : (s.issue word).responses = s.responses := rfl

@[simp] theorem State.powerCycled_capBytes (s : State) : s.powerCycled.capBytes = s.capBytes := rfl
@[simp] theorem State.powerCycled_cursor (s : State) : s.powerCycled.cursor = 0 := rfl
@[simp] theorem State.powerCycled_storage (s : State) : s.powerCycled.storage = [] := rfl
@[simp] theorem State.powerCycled_inputs (s : State) : s.powerCycled.inputs = s.inputs := rfl
@[simp] theorem State.powerCycled_responses (s : State) : s.powerCycled.responses = s.responses := rfl

@[simp] theorem State.issuing_capBytes (s : State) (ws : List CmdWord) : (s.issuing ws).capBytes = s.capBytes := rfl
@[simp] theorem State.issuing_cursor (s : State) (ws : List CmdWord) : (s.issuing ws).cursor = s.cursor := rfl
@[simp] theorem State.issuing_storage (s : State) (ws : List CmdWord) : (s.issuing ws).storage = s.storage := rfl
@[simp] theorem State.issuing_inputs (s : State) (ws : List CmdWord) : (s.issuing ws).inputs = ws.map HostEvent.command := rfl
@[simp] theorem State.issuing_responses (s : State) (ws : List CmdWord) : (s.issuing ws).responses = s.responses := rfl

@[simp] theorem State.powerOn_capBytes (capBytes : Nat) : (State.powerOn capBytes).capBytes = capBytes := rfl
@[simp] theorem State.powerOn_cursor (capBytes : Nat) : (State.powerOn capBytes).cursor = 0 := rfl
@[simp] theorem State.powerOn_storage (capBytes : Nat) : (State.powerOn capBytes).storage = [] := rfl
@[simp] theorem State.powerOn_inputs (capBytes : Nat) : (State.powerOn capBytes).inputs = [] := rfl
@[simp] theorem State.powerOn_responses (capBytes : Nat) : (State.powerOn capBytes).responses = [] := rfl

end Sys2Proof.Machine
end

