-- ==== Sys2Proof/Laws/Storage.lean ====
section
/-! SUPPORT. Storage: reading after writing by byte, bit and word, the three views of one storage (R40), and that every write keeps the canonical form. -/

namespace Sys2Proof.Machine

@[simp] theorem Memory.byteAt_nil (j : Nat) : Memory.byteAt [] j = 0#8 := rfl

theorem Memory.byteAt_cons (c : Host.Cell) (m : Memory) (j : Nat) :
    Memory.byteAt (c :: m) j = if c.1 = j then c.2 else Memory.byteAt m j := rfl

theorem Memory.byteAt_of_absent {m : Memory} {j : Nat} (h : ∀ c ∈ m, c.1 ≠ j) : m.byteAt j = 0#8 := by
  induction m with
  | nil => rfl
  | cons c m ih =>
    rw [Memory.byteAt_cons, if_neg (h c (by simp)), ih fun d hd => h d (by simp [hd])]

theorem Memory.byteAt_eraseByte (m : Memory) (j k : Nat) :
    (m.eraseByte j).byteAt k = if k = j then 0#8 else m.byteAt k := by
  induction m with
  | nil => simp [Memory.eraseByte]
  | cons c m ih =>
    by_cases hc : c.1 = j
    · have : Memory.eraseByte (c :: m) j = Memory.eraseByte m j := by simp [Memory.eraseByte, hc]
      rw [this, ih, Memory.byteAt_cons]
      by_cases hk : k = j <;> simp [hk, hc, Ne.symm]
    · have : Memory.eraseByte (c :: m) j = c :: Memory.eraseByte m j := by simp [Memory.eraseByte, hc]
      rw [this, Memory.byteAt_cons, ih, Memory.byteAt_cons]
      by_cases hk : c.1 = k
      · simp [hk, show k ≠ j by omega]
      · simp [hk]

theorem Memory.byteAt_insertCell {m : Memory} {j : Nat} (b : Byte) (h : ∀ c ∈ m, c.1 ≠ j) (k : Nat) :
    (Memory.insertCell j b m).byteAt k = if k = j then b else m.byteAt k := by
  induction m with
  | nil => simp [Memory.insertCell, Memory.byteAt_cons, eq_comm]
  | cons c m ih =>
    have hc := h c (by simp)
    have ih' := ih fun d hd => h d (by simp [hd])
    unfold Memory.insertCell
    split
    · rw [Memory.byteAt_cons]; simp [eq_comm]
    · rw [Memory.byteAt_cons, ih', Memory.byteAt_cons]
      by_cases hk : c.1 = k
      · simp [hk, show k ≠ j by omega]
      · simp [hk]

theorem Memory.eraseByte_absent (m : Memory) (j : Nat) : ∀ c ∈ m.eraseByte j, c.1 ≠ j := by
  simp [Memory.eraseByte]

/-- Reading a byte after writing one. -/
theorem Memory.byteAt_setByte (m : Memory) (j : Nat) (b : Byte) (k : Nat) :
    (m.setByte j b).byteAt k = if k = j then b else m.byteAt k := by
  unfold Memory.setByte Memory.unlisted
  split
  · next h => rw [Memory.byteAt_eraseByte, h]
  · rw [Memory.byteAt_insertCell _ (m.eraseByte_absent j), Memory.byteAt_eraseByte]
    split <;> rfl

theorem Memory.mem_insertCell {m : Memory} {j : Nat} {b : Byte} {c : Host.Cell} :
    c ∈ Memory.insertCell j b m ↔ c = (j, b) ∨ c ∈ m := by
  induction m with
  | nil => simp [Memory.insertCell]
  | cons d m ih =>
    unfold Memory.insertCell
    split
    · simp
    · simp [ih]; tauto

/-- A written cell is the byte's own or was there before. -/
theorem Memory.mem_setByte {m : Memory} {j : Nat} {b : Byte} {c : Host.Cell} (h : c ∈ m.setByte j b) :
    c.1 = j ∨ c ∈ m := by
  unfold Memory.setByte at h
  split at h
  · exact .inr (List.mem_filter.1 h).1
  · rcases Memory.mem_insertCell.1 h with rfl | h
    · exact .inl rfl
    · exact .inr (List.mem_filter.1 h).1

theorem Memory.eraseByte_wf {m : Memory} (j : Nat) (h : m.wf) : (m.eraseByte j).wf :=
  ⟨h.1.filter _, fun c hc => h.2 c (List.mem_filter.1 hc).1⟩

theorem Memory.insertCell_wf {m : Memory} {j : Nat} {b : Byte} (h : m.wf) (hj : ∀ c ∈ m, c.1 ≠ j)
    (hb : b ≠ Memory.unlisted) : (Memory.insertCell j b m).wf := by
  refine ⟨?_, fun c hc => (Memory.mem_insertCell.1 hc).elim (fun e => e ▸ hb) (h.2 c)⟩
  induction m with
  | nil => simp [Memory.insertCell]
  | cons d m ih =>
    obtain ⟨hp, hn⟩ := h
    rw [List.pairwise_cons] at hp
    have hd := hj d (by simp)
    unfold Memory.insertCell
    split
    · next hlt =>
      refine List.pairwise_cons.2 ⟨fun c hc => ?_, List.pairwise_cons.2 hp⟩
      rcases List.mem_cons.1 hc with rfl | hc
      · exact hlt
      · exact Nat.lt_trans hlt (hp.1 c hc)
    · next hlt =>
      refine List.pairwise_cons.2 ⟨fun c hc => ?_, ?_⟩
      · rcases Memory.mem_insertCell.1 hc with rfl | hc
        · simp only; omega
        · exact hp.1 c hc
      · exact ih ⟨hp.2, fun c hc => hn c (by simp [hc])⟩ fun c hc => hj c (by simp [hc])

/-- The storage after reset is in canonical form. -/
theorem State.reset_storage_wf : State.reset.storage.wf := by decide

/-- Writing a byte keeps the canonical form. -/
theorem Memory.setByte_wf {m : Memory} (j : Nat) (b : Byte) (h : m.wf) : (m.setByte j b).wf := by
  unfold Memory.setByte
  split
  · exact Memory.eraseByte_wf j h
  · next hb => exact Memory.insertCell_wf (Memory.eraseByte_wf j h) (m.eraseByte_absent j) hb

/-- A word write is eight byte writes. -/
theorem Memory.setWord_eq (m : Memory) (w : Nat) (v : Word) :
    m.setWord w v =
      (((((((m.setByte (8 * w) (v.extractLsb' 0 8)).setByte (8 * w + 1) (v.extractLsb' 8 8)).setByte
        (8 * w + 2) (v.extractLsb' 16 8)).setByte (8 * w + 3) (v.extractLsb' 24 8)).setByte
        (8 * w + 4) (v.extractLsb' 32 8)).setByte (8 * w + 5) (v.extractLsb' 40 8)).setByte
        (8 * w + 6) (v.extractLsb' 48 8)).setByte (8 * w + 7) (v.extractLsb' 56 8) := rfl

/-- Reading a byte after writing a word. -/
theorem Memory.byteAt_setWord (m : Memory) (w : Nat) (v : Word) (k : Nat) :
    (m.setWord w v).byteAt k = if k / 8 = w then v.extractLsb' (8 * (k % 8)) 8 else m.byteAt k := by
  simp only [Memory.setWord_eq, Memory.byteAt_setByte]
  by_cases hw : k / 8 = w
  · rw [if_pos hw]
    have hk : k = 8 * w + k % 8 := by omega
    have hlt : k % 8 < 8 := Nat.mod_lt _ (by omega)
    generalize k % 8 = i at hk hlt
    subst hk
    interval_cases i <;> simp
  · rw [if_neg hw]
    repeat rw [if_neg (by omega)]

/-- Writing a word keeps the canonical form. -/
theorem Memory.setWord_wf {m : Memory} (w : Nat) (v : Word) (h : m.wf) : (m.setWord w v).wf := by
  rw [Memory.setWord_eq]
  iterate 8 apply Memory.setByte_wf
  exact h

/-- A cell after a word write lies in the word or was there before. -/
theorem Memory.mem_setWord {m : Memory} {w : Nat} {v : Word} {c : Host.Cell} (h : c ∈ m.setWord w v) :
    c.1 / 8 = w ∨ c ∈ m := by
  rw [Memory.setWord_eq] at h
  rcases Memory.mem_setByte h with h | h
  · omega
  iterate 7
    rcases Memory.mem_setByte h with h | h
    · omega
  exact .inr h

@[simp] theorem Memory.bitAt_nil (k : Nat) : Memory.bitAt [] k = false := by simp [Memory.bitAt]

/-- Bit `i` of word `w` is storage bit `64w + i`. -/
theorem Memory.getLsbD_wordAt (m : Memory) (w i : Nat) (hi : i < 64) :
    (m.wordAt w).getLsbD i = m.bitAt (64 * w + i) := by
  have hdiv : (64 * w + i) / 8 = 8 * w + i / 8 := by omega
  have hmod : (64 * w + i) % 8 = i % 8 := by omega
  have at_byte : ∀ q r, i / 8 = q → i % 8 = r →
      (m.byteAt (8 * w + q)).getLsbD r = m.bitAt (64 * w + i) := by
    rintro q r rfl rfl
    rw [Memory.bitAt, hdiv, hmod]
  simp only [Memory.wordAt, BitVec.getLsbD_append]
  split_ifs
  · exact at_byte 0 i (by omega) (by omega)
  · exact at_byte 1 _ (by omega) (by omega)
  · exact at_byte 2 _ (by omega) (by omega)
  · exact at_byte 3 _ (by omega) (by omega)
  · exact at_byte 4 _ (by omega) (by omega)
  · exact at_byte 5 _ (by omega) (by omega)
  · exact at_byte 6 _ (by omega) (by omega)
  · exact at_byte 7 _ (by omega) (by omega)

/-- Reading a bit after writing a word. -/
theorem Memory.bitAt_setWord (m : Memory) (w : Nat) (v : Word) (k : Nat) :
    (m.setWord w v).bitAt k = if k / 64 = w then v.getLsbD (k % 64) else m.bitAt k := by
  have hd : k / 8 / 8 = k / 64 := by omega
  unfold Memory.bitAt
  rw [Memory.byteAt_setWord, hd]
  split
  · simp only [BitVec.getLsbD_extractLsb']
    have h8 : k % 8 < 8 := Nat.mod_lt _ (by omega)
    simp only [h8, decide_true, Bool.true_and]
    congr 1
    omega
  · rfl

/-- Reading a word after writing one. -/
theorem Memory.wordAt_setWord (m : Memory) (w : Nat) (v : Word) (u : Nat) :
    (m.setWord w v).wordAt u = if u = w then v else m.wordAt u := by
  apply BitVec.eq_of_getLsbD_eq
  intro i hi
  rw [Memory.getLsbD_wordAt _ _ _ hi, Memory.bitAt_setWord]
  have hd : (64 * u + i) / 64 = u := by omega
  have hm : (64 * u + i) % 64 = i := by omega
  rw [hd, hm]
  split
  · rfl
  · rw [Memory.getLsbD_wordAt _ _ _ hi]

end Sys2Proof.Machine
end

