-- ==== Sys2Proof/Laws/Ops.lean ====
section
/-! SUPPORT. One lemma for each shared operation, saying once everything it can do: the masked field, the OR of a word, the deposit, the cleared storage, the read of bytes, and the end of a command. -/

namespace Sys2Proof.Machine

/-- The bits of the masked field are the low `n` bits of the value (R85). -/
theorem getLsbD_maskedField (value : FieldValue) {n : Nat} (hn : n ≤ 32) (i : Nat) :
    (maskedField value n).getLsbD i = (decide (i < n) && value.getLsbD i) := by
  have hlt : 2 ^ n - 1 < 2 ^ 32 :=
    Nat.lt_of_lt_of_le (Nat.sub_lt (Nat.two_pow_pos n) (by omega)) (Nat.pow_le_pow_right (by omega) hn)
  by_cases h64 : i < 64
  · simp only [maskedField, mask, BitVec.getLsbD_setWidth, h64, decide_true, Bool.true_and,
      BitVec.getLsbD_and, BitVec.getLsbD_ofNat, Nat.testBit_two_pow_sub_one]
    by_cases hi : i < n
    · simp [hi, show i < 32 by omega]
    · simp [hi]
  · rw [BitVec.getLsbD_of_ge _ _ (by omega)]
    simp [show ¬ i < n by omega]

/-- The OR of a word: it names a word of storage, only that word's bits change, and the canonical form is kept. -/
theorem Memory.orWord_eq_some {m m' : Memory} {wordCount w : Nat} {v : Word} (h : m.orWord wordCount w v = some m') :
    w < wordCount ∧
    (∀ k, m'.bitAt k = (m.bitAt k || (decide (k / 64 = w) && v.getLsbD (k % 64)))) ∧
    (m.wf → m'.wf) ∧ ∀ c ∈ m', c.1 / 8 = w ∨ c ∈ m := by
  unfold Memory.orWord at h
  split at h
  · next hw =>
    cases h
    refine ⟨hw, fun k => ?_, fun hwf => Memory.setWord_wf _ _ hwf, fun c hc => Memory.mem_setWord hc⟩
    rw [Memory.bitAt_setWord]
    by_cases hk : k / 64 = w
    · rw [if_pos hk, BitVec.getLsbD_or, Memory.getLsbD_wordAt _ _ _ (Nat.mod_lt _ (by omega))]
      simp [hk, show 64 * w + k % 64 = k by omega]
    · simp [hk]
  · cases h

/-- The OR of a word below `W` answers. -/
theorem Memory.exists_orWord (m : Memory) {wordCount w : Nat} (v : Word) (h : w < wordCount) :
    ∃ m', m.orWord wordCount w v = some m' := by
  simp [Memory.orWord, h]

/-- The part of a field that goes into the current word, bit by bit (R82). -/
theorem getLsbD_currentPart (field : Word) {c k : Nat} (hk : k / 64 = c / 64) :
    (currentPart field (wordShift c)).getLsbD (k % 64) = (decide (c ≤ k) && field.getLsbD (k - c)) := by
  unfold currentPart wordShift
  rw [BitVec.getLsbD_shiftLeft]
  by_cases hc : c ≤ k
  · simp [hc, Nat.mod_lt k (show 0 < 64 by omega), show ¬ k % 64 < c % 64 by omega,
      show k % 64 - c % 64 = k - c by omega]
  · simp [hc, show k % 64 < c % 64 by omega]

/-- The part of a field that goes into the next word, bit by bit (R83). -/
theorem getLsbD_nextPart (field : Word) {c k : Nat} (hk : k / 64 = c / 64 + 1) :
    (nextPart field (wordShift c)).getLsbD (k % 64) = field.getLsbD (k - c) := by
  unfold nextPart wordShift
  rw [BitVec.getLsbD_ushiftRight]
  congr 1
  omega

/-- The deposit of an `n`-bit field that fits in the words answers, and ORs bit `i` of the field into storage bit
`cursor + i`; it keeps the canonical form and lists no byte past the words (R82, R83, R86). -/
theorem Memory.deposit_spec (m : Memory) (field : Word) {wordCount c n : Nat} (hn : 1 ≤ n) (hn' : n ≤ 32)
    (hfit : c + n ≤ 64 * wordCount) (hm : ∀ i, n ≤ i → field.getLsbD i = false) :
    ∃ m', m.deposit wordCount c field n = some m' ∧
      (∀ k, m'.bitAt k = (m.bitAt k || (decide (c ≤ k) && field.getLsbD (k - c)))) ∧
      (m.wf → m'.wf) ∧ ∀ d ∈ m', d.1 < 8 * wordCount ∨ d ∈ m := by
  have hw : wordIndex c < wordCount := by unfold wordIndex; omega
  obtain ⟨m₁, h₁⟩ := m.exists_orWord (currentPart field (wordShift c)) hw
  obtain ⟨-, hbit, hwf, hmem⟩ := Memory.orWord_eq_some h₁
  have beyond : ∀ k, ¬ k < c + n → (decide (c ≤ k) && field.getLsbD (k - c)) = false := fun k hk => by
    rw [hm _ (by omega)]; simp
  unfold Memory.deposit
  simp only [h₁, Option.bind_some]
  by_cases hspan : spansTwoWords c n
  · rw [if_pos hspan]
    have hs : 64 < c % 64 + n := hspan
    obtain ⟨m₂, h₂⟩ := m₁.exists_orWord (nextPart field (wordShift c))
      (show wordIndex c + 1 < wordCount by unfold wordIndex; omega)
    obtain ⟨hw', hbit', hwf', hmem'⟩ := Memory.orWord_eq_some h₂
    refine ⟨m₂, h₂, fun k => ?_, fun h => hwf' (hwf h), fun d hd => ?_⟩
    · rw [hbit', hbit]
      by_cases h0 : k / 64 = c / 64
      · simp [wordIndex, h0, getLsbD_currentPart field h0]
      by_cases h1 : k / 64 = c / 64 + 1
      · simp [wordIndex, h1, getLsbD_nextPart field h1, show c ≤ k by omega]
      · by_cases hc : c ≤ k
        · simp [wordIndex, h0, h1, hm _ (show n ≤ k - c by omega)]
        · simp [wordIndex, h0, h1, hc]
    · rcases hmem' d hd with h | h
      · left; omega
      rcases hmem d h with h | h
      · left; omega
      · exact .inr h
  · rw [if_neg hspan]
    have hs : ¬ 64 < c % 64 + n := hspan
    refine ⟨m₁, rfl, fun k => ?_, hwf, fun d hd => ?_⟩
    · rw [hbit]
      by_cases h0 : k / 64 = c / 64
      · simp [wordIndex, h0, getLsbD_currentPart field h0]
      · by_cases hc : c ≤ k
        · simp [wordIndex, h0, hm _ (show n ≤ k - c by omega)]
        · simp [wordIndex, h0, hc]
    · rcases hmem d hd with h | h
      · left; omega
      · exact .inr h

/-- Clearing `n` words clears exactly their bytes and keeps the canonical form. -/
theorem clearWords_spec (m : Memory) (n : Nat) :
    let cleared := (List.range n).foldl (fun m w => m.setWord w 0#64) m
    (∀ j, cleared.byteAt j = if j < 8 * n then 0#8 else m.byteAt j) ∧ (m.wf → cleared.wf) := by
  induction n with
  | zero => simp
  | succ n ih =>
    simp only [List.range_succ, List.foldl_append, List.foldl_cons, List.foldl_nil] at ih ⊢
    refine ⟨fun j => ?_, fun h => Memory.setWord_wf _ _ (ih.2 h)⟩
    rw [Memory.byteAt_setWord, ih.1]
    by_cases h : j / 8 = n
    · rw [if_pos h, if_pos (by omega)]; simp
    · rw [if_neg h]
      by_cases h' : j < 8 * n
      · rw [if_pos h', if_pos (by omega)]
      · rw [if_neg h', if_neg (by omega)]

/-- The cleared storage: every byte of the `W` words is zero, every other as before (R101). -/
theorem State.byteAt_clearedStorage (s : State) (j : Nat) :
    s.clearedStorage.byteAt j = if j < 8 * s.wordCount then 0#8 else s.storage.byteAt j :=
  (clearWords_spec s.storage s.wordCount).1 j

theorem State.bitAt_clearedStorage (s : State) (k : Nat) :
    s.clearedStorage.bitAt k = if k < 64 * s.wordCount then false else s.storage.bitAt k := by
  unfold Memory.bitAt
  rw [s.byteAt_clearedStorage]
  by_cases h : k < 64 * s.wordCount
  · rw [if_pos h, if_pos (by omega)]; simp
  · rw [if_neg h, if_neg (by omega)]

/-- Clearing keeps the canonical form. -/
theorem State.clearedStorage_wf {s : State} (h : s.storage.wf) : s.clearedStorage.wf :=
  (clearWords_spec s.storage s.wordCount).2 h

/-- In canonical form the cell of a byte is what the byte reads as. -/
theorem Memory.byteAt_of_mem {m : Memory} (h : m.wf) {c : Host.Cell} (hc : c ∈ m) : m.byteAt c.1 = c.2 := by
  obtain ⟨hp, -⟩ := h
  induction m with
  | nil => cases hc
  | cons d m ih =>
    rw [List.pairwise_cons] at hp
    rw [Memory.byteAt_cons]
    rcases List.mem_cons.1 hc with rfl | hc
    · simp
    · rw [if_neg (Nat.ne_of_lt (hp.1 c hc)), ih hc hp.2]

/-- Every cell of the cleared storage lies past the `W` words and was there before. -/
theorem State.mem_clearedStorage {s : State} (h : s.storage.wf) {c : Host.Cell} (hc : c ∈ s.clearedStorage) :
    8 * s.wordCount ≤ c.1 := by
  by_contra hlt
  have hwf := State.clearedStorage_wf h
  have := Memory.byteAt_of_mem hwf hc
  rw [s.byteAt_clearedStorage, if_pos (by omega)] at this
  exact hwf.2 c hc this.symm

/-- Reading `n` bytes from byte `j`: within the capacity, the bytes; past it, nothing (R13). -/
theorem State.memRead_eq_some {s : State} {j n : Nat} {data : List Byte} :
    s.memRead j n = some data ↔
      j + n ≤ s.capBytes ∧ data = (List.range n).map fun i => s.storage.byteAt (j + i) := by
  unfold State.memRead
  split
  · next h => simp [h, eq_comm]
  · next h => simp [h]

/-- A response ends the command and changes nothing else. -/
theorem respond_eq (status : Status) (len : Nat) (data : List Byte) (s : State) :
    respond status len data s = .next { s with responses := s.responses ++ [⟨status, len, data⟩] } := rfl

/-- An error changes nothing but the responses (R123). -/
theorem raise_eq (error : Status) (s : State) :
    raise error s = .next { s with responses := s.responses ++ [⟨error, 0, []⟩] } := rfl

/-- The three outcomes of the checks of WRITE, in their order (R81, R125). -/
theorem writeStatus_cases (s : State) (n : Nat) :
    (writeStatus s n = .invalidArgument ∧ (n = 0 ∨ 32 < n)) ∨
    (writeStatus s n = .bufferExhausted ∧ 1 ≤ n ∧ n ≤ 32 ∧ 8 * s.capBytes < s.cursor + n) ∨
    (writeStatus s n = .ok ∧ 1 ≤ n ∧ n ≤ 32 ∧ s.cursor + n ≤ 8 * s.capBytes) := by
  unfold writeStatus State.capacityBits
  split
  · next h => exact .inl ⟨rfl, h⟩
  · split
    · exact .inr (.inl ⟨rfl, by omega, by omega, by omega⟩)
    · exact .inr (.inr ⟨rfl, by omega, by omega, by omega⟩)

end Sys2Proof.Machine
end

