-- ==== Sys2Proof/Laws/Exec.lean ====
section
/-! SUPPORT. What each meaning, and the step, can do, said once: the inversion lemmas the proofs cite instead of unfolding `exec` and `step`. -/

namespace Sys2Proof.Machine

/-- A WRITE is turned away with one of the two errors, or deposits its field; it does nothing else. -/
theorem execWrite_cases (value : FieldValue) (n : Nat) (s : State) :
    ((n = 0 ∨ 32 < n) ∧ execWrite value n s = raise .invalidArgument s) ∨
    (1 ≤ n ∧ n ≤ 32 ∧ 8 * s.capBytes < s.cursor + n ∧ execWrite value n s = raise .bufferExhausted s) ∨
    (1 ≤ n ∧ n ≤ 32 ∧ s.cursor + n ≤ 8 * s.capBytes ∧ ∃ m : Memory,
      execWrite value n s = respond .ok 0 [] { s with storage := m, cursor := s.cursor + n } ∧
      s.storage.deposit s.wordCount s.cursor (maskedField value n) n = some m ∧
      (∀ k, m.bitAt k = (s.storage.bitAt k || (decide (s.cursor ≤ k ∧ k < s.cursor + n) && value.getLsbD (k - s.cursor)))) ∧
      (s.storage.wf → m.wf) ∧ ∀ c ∈ m, c.1 < 8 * s.wordCount ∨ c ∈ s.storage) := by
  unfold execWrite
  rcases writeStatus_cases s n with ⟨h, hn⟩ | ⟨h, h1, h2, h3⟩ | ⟨h, h1, h2, h3⟩
  · exact .inl ⟨hn, by simp [h]⟩
  · exact .inr (.inl ⟨h1, h2, h3, by simp [h]⟩)
  · right; right
    have hm : ∀ i, n ≤ i → (maskedField value n).getLsbD i = false := fun i hi => by
      rw [getLsbD_maskedField _ h2]; simp [show ¬ i < n by omega]
    have hfit : s.cursor + n ≤ 64 * s.wordCount := by unfold State.wordCount; omega
    obtain ⟨m, hd, hbit, hwf, hmem⟩ := s.storage.deposit_spec (maskedField value n) h1 h2 hfit hm
    refine ⟨h1, h2, h3, m, ?_, hd, fun k => ?_, hwf, hmem⟩
    · simp only [h, if_true, hd]
    · rw [hbit, getLsbD_maskedField _ h2]
      by_cases hc : s.cursor ≤ k
      · simp [hc, show k - s.cursor < n ↔ k < s.cursor + n by omega]
      · simp [hc]

/-- RESET always answers: the cleared storage and cursor 0. -/
theorem execReset_eq (s : State) :
    execReset s = respond .ok 0 [] { s with storage := s.clearedStorage, cursor := 0 } := rfl

/-- DRAIN answers the written bytes when the cursor is within the capacity, and stops otherwise. -/
theorem execDrain_eq (s : State) :
    execDrain s = if s.cursor ≤ 8 * s.capBytes then
      respond .ok (drainLength s.cursor) ((List.range (drainLength s.cursor)).map s.storage.byteAt) s
    else .fault .outsideStorage := by
  unfold execDrain State.memRead
  have h : 0 + drainLength s.cursor ≤ s.capBytes ↔ s.cursor ≤ 8 * s.capBytes := by unfold drainLength; omega
  by_cases hc : s.cursor ≤ 8 * s.capBytes
  · rw [if_pos (h.2 hc), if_pos hc]
    simp
  · rw [if_neg (fun h' => hc (h.1 h')), if_neg hc]

/-- The reserved word always answers ILLEGAL_COMMAND. -/
theorem execReserved_eq (s : State) : execReserved s = raise .illegalCommand s := rfl

/-- Everything a command that answers a next state can have done to the state. -/
theorem exec_next_cases {i : Instr} {s t : State} (h : exec i s = .next t) :
    (∃ value n, i = .write value n ∧ (n = 0 ∨ 32 < n) ∧
      t = { s with responses := s.responses ++ [⟨.invalidArgument, 0, []⟩] }) ∨
    (∃ value n, i = .write value n ∧ 1 ≤ n ∧ n ≤ 32 ∧ 8 * s.capBytes < s.cursor + n ∧
      t = { s with responses := s.responses ++ [⟨.bufferExhausted, 0, []⟩] }) ∨
    (∃ value n, i = .write value n ∧ 1 ≤ n ∧ n ≤ 32 ∧ s.cursor + n ≤ 8 * s.capBytes ∧
      t = { s with storage := t.storage, cursor := s.cursor + n, responses := s.responses ++ [⟨.ok, 0, []⟩] } ∧
      s.storage.deposit s.wordCount s.cursor (maskedField value n) n = some t.storage ∧
      (∀ k, t.storage.bitAt k =
        (s.storage.bitAt k || (decide (s.cursor ≤ k ∧ k < s.cursor + n) && value.getLsbD (k - s.cursor)))) ∧
      (s.storage.wf → t.storage.wf) ∧ ∀ c ∈ t.storage, c.1 < 8 * s.wordCount ∨ c ∈ s.storage) ∨
    (i = .reset ∧
      t = { s with storage := s.clearedStorage, cursor := 0, responses := s.responses ++ [⟨.ok, 0, []⟩] }) ∨
    (i = .drain ∧ s.cursor ≤ 8 * s.capBytes ∧
      t = { s with responses := s.responses ++ [⟨.ok, drainLength s.cursor, (List.range (drainLength s.cursor)).map s.storage.byteAt⟩] }) ∨
    (i = .reserved ∧ t = { s with responses := s.responses ++ [⟨.illegalCommand, 0, []⟩] }) := by
  cases i with
  | write value n =>
    change execWrite value n s = .next t at h
    rcases execWrite_cases value n s with ⟨hn, he⟩ | ⟨h1, h2, h3, he⟩ | ⟨h1, h2, h3, m, he, hd, hb, hwf, hmem⟩
    · rw [he, raise_eq] at h
      exact .inl ⟨value, n, rfl, hn, (Host.Outcome.next.inj h).symm⟩
    · rw [he, raise_eq] at h
      exact .inr (.inl ⟨value, n, rfl, h1, h2, h3, (Host.Outcome.next.inj h).symm⟩)
    · rw [he, respond_eq] at h
      obtain rfl := Host.Outcome.next.inj h
      exact .inr (.inr (.inl ⟨value, n, rfl, h1, h2, h3, rfl, hd, hb, hwf, hmem⟩))
  | reset =>
    change execReset s = .next t at h
    rw [execReset_eq, respond_eq] at h
    exact .inr (.inr (.inr (.inl ⟨rfl, (Host.Outcome.next.inj h).symm⟩)))
  | drain =>
    change execDrain s = .next t at h
    rw [execDrain_eq] at h
    split at h
    · next hc =>
      rw [respond_eq] at h
      exact .inr (.inr (.inr (.inr (.inl ⟨rfl, hc, (Host.Outcome.next.inj h).symm⟩))))
    · cases h
  | reserved =>
    change execReserved s = .next t at h
    rw [execReserved_eq, raise_eq] at h
    exact .inr (.inr (.inr (.inr (.inr ⟨rfl, (Host.Outcome.next.inj h).symm⟩))))

/-- Everything a step that answers a next state can have done. -/
theorem step_next_cases {s t : State} (h : step s = .next t) :
    (s.inputs = [] ∧ t = s) ∨
    (∃ w rest, s.inputs = .command w :: rest ∧ exec (decode w) (s.withInputs rest) = .next t) ∨
    (∃ rest, s.inputs = .powerCycle :: rest ∧ t = (s.withInputs rest).powerCycled) := by
  unfold step at h
  split at h
  · next he => exact .inl ⟨he, (Host.Outcome.next.inj h).symm⟩
  · next w rest he => exact .inr (.inl ⟨w, rest, he, h⟩)
  · next rest he => exact .inr (.inr ⟨rest, he, (Host.Outcome.next.inj h).symm⟩)
  · cases h

end Sys2Proof.Machine
end

