-- ==== Sys2Proof/Laws/PerInstr.lean ====
section
/-! SUPPORT. Facts about every command as syntax, one lemma for each constructor. -/

namespace Sys2Proof.Laws

/-- The opcode of a command, from the table of R61. -/
def OpcodeMap.opcode : Instr → BitVec 2
  | .write _ _ => 0b00#2
  | .reset => 0b01#2
  | .drain => 0b10#2
  | .reserved => 0b11#2

/-- The encoding of a command carries its opcode of R61 in bits 39 and 38. -/
def OpcodeMap.Statement (i : Instr) : Prop := opField (encode i) = OpcodeMap.opcode i

theorem OpcodeMap.write (value : FieldValue) (bitCount : Nat) : OpcodeMap.Statement (.write value bitCount) := by
  unfold OpcodeMap.Statement OpcodeMap.opcode opField encode packCmd
  apply BitVec.eq_of_getLsbD_eq
  intro i hi
  simp only [BitVec.getLsbD_extractLsb', BitVec.getLsbD_append]
  interval_cases i <;> simp

theorem OpcodeMap.reset : OpcodeMap.Statement .reset := by unfold OpcodeMap.Statement; decide

theorem OpcodeMap.drain : OpcodeMap.Statement .drain := by unfold OpcodeMap.Statement; decide

theorem OpcodeMap.reserved : OpcodeMap.Statement .reserved := by unfold OpcodeMap.Statement; decide

end Sys2Proof.Laws
end

