-- ==== Sys2Proof/Tests/Slice0.lean ====
section
/-! SUPPORT. The model's own tests: the check of WellFormed, words written out from the spec's encoding, vectors of spec/95_test_vectors.md, and for each statement with hypotheses a state and operands that meet them. -/

namespace Sys2Proof.Tests

open Sys2Proof.Machine

/-- A block of `capBytes` bytes with the given cursor and words, and the given events to come. -/
def blockAt (capBytes cursor : Nat) (words : List Word) (inputs : List HostEvent) : State :=
  { capBytes := capBytes
    cursor := cursor
    storage := (words.zipIdx).foldl (fun m vw => m.setWord vw.2 vw.1) []
    inputs := inputs
    responses := [] }

/-- The cursor, the first two words and the responses of the state a step answers; none where it stops. -/
def seen : Host.Outcome State Fault Refusal → Option (Nat × Word × Word × List Response)
  | .next t => some (t.cursor, t.storage.wordAt 0, t.storage.wordAt 1, t.responses)
  | .fault _ => none
  | .refused _ => none

/-! ### WellFormed (R63, R71) -/

theorem test_wellFormed_refuses_bitCount_64 : ¬(Instr.write 0#32 64).WellFormed := by decide

theorem test_wellFormed_takes_bitCount_63 : (Instr.write 0#32 63).WellFormed := by decide

/-! ### Decoding: words written out bit by bit from R60 and R61 -/

/-- op 00, bitCount 001000, value 0xAB (vector WR11). -/
theorem test_decode_write :
    decode 0b0000100000000000000000000000000010101011#40 = .write 0xAB#32 8 := by decide

/-- op 00, bitCount 100000, value with its top and bottom bits set (vector WR14). -/
theorem test_decode_write_wide :
    decode 0b0010000010000000000000000000000000000001#40 = .write 0x80000001#32 32 := by decide

/-- op 01, then 38 zeros (R71). -/
theorem test_decode_reset : decode 0b0100000000000000000000000000000000000000#40 = .reset := by decide

/-- op 10, then 38 ones, which are ignored (vector DR5). -/
theorem test_decode_drain : decode 0b1011111111111111111111111111111111111111#40 = .drain := by decide

/-- op 11 (vector DC3). -/
theorem test_decode_reserved : decode 0b1100000000000000000000000000000000000101#40 = .reserved := by decide

/-- The table's WRITE row with every open bit 0 (match 0x0000000000). -/
theorem test_decodeTableWord_write : decodeTableWord 40 0 = some (.write 0#32 0) := by decide

theorem test_decodeTableWord_reset : decodeTableWord 40 0x4000000000 = some .reset := by decide

theorem test_decodeTableWord_drain : decodeTableWord 40 0x8000000000 = some .drain := by decide

theorem test_decodeTableWord_reserved : decodeTableWord 40 0xC000000000 = some .reserved := by decide

/-- A comment alone is no command; an operand of RESET is no line of R71. -/
theorem test_assembler_rejects : assembleLine [' ', ';', 'x'] = .blank ∧
    assembleLine ['R', 'E', 'S', 'E', 'T', ' ', '1'] = .malformed := by decide

/-! ### One step each, from the vectors -/

/-- Vector WR13: the largest span, `shift + bitCount = 95`. -/
theorem test_write_largest_span :
    seen (step (blockAt 16 63 [0#64] [.command 0x20FFFFFFFF#40])) =
      some (95, 0x8000000000000000#64, 0x000000007FFFFFFF#64, [⟨.ok, 0, []⟩]) := by decide

/-- Vector WR19: both causes apply, InvalidArgument wins. -/
theorem test_write_both_causes :
    seen (step (blockAt 1 8 [0xFF#64] [.command 0x2800000001#40])) =
      some (8, 0xFF#64, 0#64, [⟨.invalidArgument, 0, []⟩]) := by decide

/-- Vector RS2: both words zeroed. -/
theorem test_reset_both_words :
    seen (step (blockAt 16 68 [0xB0000000FFFFFFFF#64, 0xA#64] [.command 0x4000000000#40])) =
      some (0, 0#64, 0#64, [⟨.ok, 0, []⟩]) := by decide

/-- Vector RS4: the ignored bits all ones. -/
theorem test_reset_ignores_operands :
    seen (step (blockAt 4 5 [0x1D#64] [.command 0x7FFFFFFFFF#40])) = some (0, 0#64, 0#64, [⟨.ok, 0, []⟩]) := by decide

/-- Vector DR6: across a word boundary, little-endian word bytes. -/
theorem test_drain_crosses_word :
    seen (step (blockAt 16 68 [0xB0000000FFFFFFFF#64, 0xA#64] [.command 0x8000000000#40])) =
      some (68, 0xB0000000FFFFFFFF#64, 0xA#64,
        [⟨.ok, 9, [0xFF#8, 0xFF#8, 0xFF#8, 0xFF#8, 0x00#8, 0x00#8, 0x00#8, 0xB0#8, 0x0A#8]⟩]) := by decide

/-- Vector DR7: a full block whose capacity is not a multiple of 8; no padding byte is returned. -/
theorem test_drain_full_block :
    seen (step (blockAt 5 40 [0x000000DEADBEEFAA#64] [.command 0x8000000000#40])) =
      some (40, 0x000000DEADBEEFAA#64, 0#64, [⟨.ok, 5, [0xAA#8, 0xEF#8, 0xBE#8, 0xAD#8, 0xDE#8]⟩]) := by decide

/-- Vector DC2. -/
theorem test_reserved_changes_nothing :
    seen (step (blockAt 4 5 [0x1D#64] [.command 0xFFFFFFFFFF#40])) =
      some (5, 0x1D#64, 0#64, [⟨.illegalCommand, 0, []⟩]) := by decide

/-- From reset, with the word placed by `withFetchWord`, the first step performs it (WR1 on a fresh block). -/
theorem test_first_step_after_reset :
    seen (step (State.reset.withFetchWord 40 0x0300000005)) = some (3, 5#64, 0#64, [⟨.ok, 0, []⟩]) := by decide

/-! ### Witnesses: the hypotheses of each statement, met together -/

/-- A legal block mid-word: the state of WR2 and DR5, with a command to come. -/
abbrev midWord (inputs : List HostEvent) : State := blockAt 4 5 [0x1D#64] inputs

/-- A full block of 5 bytes, so with padding (WR23, DR7). -/
abbrev fullPadded (inputs : List HostEvent) : State := blockAt 5 40 [0x000000DEADBEEFAA#64] inputs

/-- A block of one byte with one bit free (WR20, WR21). -/
abbrev oneBitFree (inputs : List HostEvent) : State := blockAt 1 7 [0x7F#64] inputs

/-- A block whose cursor lies past its capacity: no run reaches it. -/
abbrev pastCapacity (inputs : List HostEvent) : State := blockAt 1 9 [] inputs

/-- A block with a one in its padding: no run reaches it. -/
abbrev dirtyPadding (inputs : List HostEvent) : State := blockAt 5 40 [0x000001DEADBEEFAA#64] inputs

theorem legal_midWord : (midWord []).Legal := by decide

theorem legal_fullPadded : (fullPadded []).Legal := by decide

theorem witness_DecodeEncodeRoundTrip :
    (Instr.write 0xFFFFFFFF#32 63).WellFormed ∧ (Instr.write 0#32 0).WellFormed ∧ Instr.reset.WellFormed ∧
      Instr.drain.WellFormed ∧ Instr.reserved.WellFormed := by decide

theorem witness_DecodeReadsExactlyTheMeaningfulBits :
    (opField 0x7FFFFFFFFF#40 = opField 0x4000000000#40 ∧ opField 0x7FFFFFFFFF#40 ≠ 0b00#2) ∧
      decode 0x7FFFFFFFFF#40 = decode 0x4000000000#40 ∧ opField 0x3FFFFFFFFF#40 = 0b00#2 := by decide

theorem witness_EncodeDecodeIsCanonical :
    opField 0x3FFFFFFFFF#40 = 0b00#2 ∧ opField 0x7FFFFFFFFF#40 ≠ 0b00#2 := by decide

theorem witness_WriteWordArithmetic : (63 : Nat) < 64 := by decide

theorem witness_StepRunsTheIssuedCommand :
    (midWord [.command 0x0200000003#40]).inputs = .command 0x0200000003#40 :: [] ∧ 0xFFFFFFFFFF < 2 ^ 40 := by decide

theorem witness_IdleAndPowerCycleSteps :
    (midWord []).inputs = [] ∧ (midWord [.powerCycle]).inputs = .powerCycle :: [] := by decide

theorem witness_OverlappingCommandsAreRefused :
    (midWord [.overlapping 0#40 0#40]).inputs = .overlapping 0#40 0#40 :: [] := by decide

theorem witness_LegalStatesNeverFault :
    (midWord []).Legal ∧ Instr.reserved ≠ .drain ∧ (fullPadded []).CursorInRange := ⟨legal_midWord, by decide, by decide⟩

theorem witness_CommandDependsOnlyOnTheBlock :
    SameBlock (midWord []) (midWord [.powerCycle]) ∧ SameBlock (pastCapacity []) (pastCapacity [.powerCycle]) ∧
      (∃ s', exec (.write 3#32 2) (midWord []) = .next s') ∧ exec .drain (pastCapacity []) = .fault .outsideStorage :=
  ⟨by decide, by decide, ⟨_, rfl⟩, rfl⟩

/-- Capacity 5 has one word and the padding bits 40..63. -/
theorem witness_ResetValues :
    (1 : Nat) ≤ 5 ∧ 0 < (State.powerOn 5).wordCount ∧ (State.powerOn 5).capacityBits ≤ 40 ∧
      40 < 64 * (State.powerOn 5).wordCount := by decide

theorem witness_PowerOnIsLegal : (1 : Nat) ≤ 1 := by decide

theorem witness_StepKeepsLegal :
    (midWord [.command 0x0200000003#40]).Legal ∧ ∃ t, step (midWord [.command 0x0200000003#40]) = .next t :=
  ⟨by decide, _, rfl⟩

theorem witness_CapacityNeverChanges : ∃ t, step (midWord [.command 0x0200000003#40]) = .next t := ⟨_, rfl⟩

/-- Each clause: a failed WRITE leaves the cursor, a WRITE fills the block exactly, a RESET and a power cycle return to 0. -/
theorem witness_CursorMovesOnlyByWriteAndReset :
    (∃ t, step (oneBitFree [.command 0x0200000000#40]) = .next t ∧ t.cursor = 7) ∧
    (∃ t, step (oneBitFree [.command 0x0100000001#40]) = .next t ∧ t.cursor = 8) ∧
    (∃ t, step (oneBitFree [.command 0x4000000000#40]) = .next t ∧ t.cursor = 0) ∧
    (∃ t, step (oneBitFree [.powerCycle]) = .next t ∧ t.cursor = 0) :=
  ⟨⟨_, rfl, rfl⟩, ⟨_, rfl, rfl⟩, ⟨_, rfl, rfl⟩, _, rfl, rfl⟩

theorem witness_PaddingIsNeverWritten :
    (dirtyPadding []).capacityBits ≤ 40 ∧
      ∃ t, step (dirtyPadding [.command 0xC000000000#40]) = .next t ∧ t.storage.bitAt 40 = true :=
  ⟨by decide, _, rfl, by decide⟩

theorem witness_RegistersFitTheirWidths :
    (midWord []).Legal ∧ (midWord []).capacityBits < 2 ^ 6 ∧ (midWord []).capBytes < 2 ^ 3 :=
  ⟨legal_midWord, by decide, by decide⟩

/-- One command of each status. -/
theorem witness_StatusCodesAsTabled :
    (∃ t, exec (.write 0#32 0) (oneBitFree []) = .next t ∧ t.responses = [] ++ [⟨.invalidArgument, 0, []⟩]) ∧
    (∃ t, exec (.write 0#32 2) (oneBitFree []) = .next t ∧ t.responses = [] ++ [⟨.bufferExhausted, 0, []⟩]) ∧
    (∃ t, exec .reserved (oneBitFree []) = .next t ∧ t.responses = [] ++ [⟨.illegalCommand, 0, []⟩]) ∧
    (∃ t, exec .reset (oneBitFree []) = .next t ∧ t.responses = [] ++ [⟨.ok, 0, []⟩]) :=
  ⟨⟨_, rfl, rfl⟩, ⟨_, rfl, rfl⟩, ⟨_, rfl, rfl⟩, _, rfl, rfl⟩

theorem witness_EveryCommandAnswersOnce :
    Instr.reset ≠ .drain ∧ (∃ t, exec .reset (midWord []) = .next t) ∧ ∃ t, exec .drain (midWord []) = .next t :=
  ⟨by decide, ⟨_, rfl⟩, _, rfl⟩

theorem witness_GivenResponsesNeverChange : ∃ t, step (midWord [.command 0x8000000000#40]) = .next t := ⟨_, rfl⟩

/-- The edges of the bad widths (64 is the first that no command word holds), and the response they give. -/
theorem witness_WriteRejectsBadBitCount :
    ((0 : Nat) = 0 ∨ 32 < 0) ∧ ((33 : Nat) = 0 ∨ 32 < 33) ∧ ((64 : Nat) = 0 ∨ 32 < 64) ∧
      ∃ t, exec (.write 7#32 33) (midWord []) = .next t ∧
        t.responses = (midWord []).responses ++ [⟨.invalidArgument, 0, []⟩] :=
  ⟨by decide, by decide, by decide, _, rfl, rfl⟩

/-- The least width that does not fit, and the greatest width. -/
theorem witness_WriteRejectsOverflow :
    (1 ≤ 2 ∧ 2 ≤ 32 ∧ 8 * (oneBitFree []).capBytes < (oneBitFree []).cursor + 2) ∧
      1 ≤ 32 ∧ 32 ≤ 32 ∧ 8 * (oneBitFree []).capBytes < (oneBitFree []).cursor + 32 := by decide

theorem witness_FailedCommandHasNoEffect :
    ∃ t r, exec (.write 0#32 2) (oneBitFree []) = .next t ∧ t.responses = (oneBitFree []).responses ++ [r] ∧
      r.status ≠ .ok :=
  ⟨_, ⟨.bufferExhausted, 0, []⟩, rfl, rfl, by decide⟩

/-- WR20 then WR21: the wide WRITE fails, the narrow one still succeeds. -/
theorem witness_CommandAfterFailureActsAsIfNeverIssued :
    ∃ t r u, exec (.write 0#32 2) (oneBitFree []) = .next t ∧ t.responses = (oneBitFree []).responses ++ [r] ∧
      r.status ≠ .ok ∧ exec (.write 1#32 1) (oneBitFree []) = .next u :=
  ⟨_, ⟨.bufferExhausted, 0, []⟩, _, rfl, rfl, by decide, rfl⟩

theorem witness_ReservedAnswersIllegalCommand :
    (midWord [.command 0xFFFFFFFFFF#40]).inputs = .command 0xFFFFFFFFFF#40 :: [] ∧ opField 0xFFFFFFFFFF#40 = 0b11#2 := by
  decide

/-- A WRITE that spans, one that ends exactly at the word's end, and one that fills the capacity (WR13, WR7, WR21). -/
theorem witness_WriteDepositsIntoWords :
    (32 ≤ 32 ∧ (blockAt 16 63 [] []).cursor + 32 ≤ 8 * (blockAt 16 63 [] []).capBytes ∧
      64 < (blockAt 16 63 [] []).cursor % 64 + 32) ∧
    ((blockAt 8 32 [0xFFFFFFFF#64] []).cursor + 32 ≤ 8 * (blockAt 8 32 [0xFFFFFFFF#64] []).capBytes ∧
      (blockAt 8 32 [0xFFFFFFFF#64] []).cursor % 64 + 32 ≤ 64) ∧
    1 ≤ 1 ∧ (oneBitFree []).cursor + 1 ≤ 8 * (oneBitFree []).capBytes := by decide

/-- The same for the statements with the zero invariant: spanning at the largest shift, and filling the capacity. -/
theorem witness_WriteSetsExactlyItsBits :
    ((blockAt 16 63 [] []).ZeroBeyondCursor ∧ 1 ≤ 32 ∧ 32 ≤ 32 ∧
      (blockAt 16 63 [] []).cursor + 32 ≤ 8 * (blockAt 16 63 [] []).capBytes ∧
      64 < (blockAt 16 63 [] []).cursor % 64 + 32) ∧
    ((oneBitFree []).ZeroBeyondCursor ∧ 1 ≤ 1 ∧ 1 ≤ 32 ∧ (oneBitFree []).cursor + 1 ≤ 8 * (oneBitFree []).capBytes) := by
  decide

theorem witness_WriteFrame :
    (∃ t, exec (.write 1#32 1) (oneBitFree []) = .next t) ∧ (∃ t, exec (.write 0#32 2) (oneBitFree []) = .next t) :=
  ⟨⟨_, rfl⟩, _, rfl⟩

theorem witness_OrIsAPlainStore :
    (blockAt 16 60 [0xFFFFFFFF#64] []).ZeroBeyondCursor ∧ 1 ≤ 8 ∧ 8 ≤ 32 ∧
      (blockAt 16 60 [0xFFFFFFFF#64] []).cursor + 8 ≤ 8 * (blockAt 16 60 [0xFFFFFFFF#64] []).capBytes ∧
      64 < (blockAt 16 60 [0xFFFFFFFF#64] []).cursor % 64 + 8 := by decide

theorem witness_FieldReadsBack :
    (blockAt 16 33 [1#64] []).ZeroBeyondCursor ∧ 1 ≤ 32 ∧ 32 ≤ 32 ∧
      (blockAt 16 33 [1#64] []).cursor + 32 ≤ 8 * (blockAt 16 33 [1#64] []).capBytes ∧
      (0xFFFFFFFF#32).toNat < 2 ^ 32 := by decide

theorem witness_WrittenFieldsStay :
    Instr.write 3#32 2 ≠ .reset ∧ (∃ t, exec (.write 3#32 2) (midWord []) = .next t) ∧ 3 + 2 ≤ (midWord []).cursor :=
  ⟨by decide, ⟨_, rfl⟩, by decide⟩

/-- P5, step 1: a code of 16 bits into a fresh block; and the greatest Quantizer width. -/
theorem witness_QuantizerCodeIsStored :
    (State.powerOn 4).ZeroBeyondCursor ∧ 1 ≤ 16 ∧ 30 ≤ 30 ∧ (State.powerOn 4).cursor + 16 ≤ 8 * (State.powerOn 4).capBytes ∧
      (State.powerOn 4).cursor + 30 ≤ 8 * (State.powerOn 4).capBytes := by decide

theorem witness_ResetClearsEveryWord :
    0 < (fullPadded []).wordCount ∧ 8 * (fullPadded []).wordCount ≤ 8 := by decide

theorem witness_ResetEqualsPowerOn : (fullPadded []).StorageInForm := by decide

theorem witness_ResetThenDrainIsEmpty : ∃ t, exec .reset (pastCapacity []) = .next t := ⟨_, rfl⟩

theorem witness_SideEffectsAndIdempotency :
    (∃ t, exec .drain (midWord []) = .next t) ∧ (∃ t, exec .reset (midWord []) = .next t) ∧
      ∃ t r, exec (.write 3#32 2) (midWord []) = .next t ∧ t.responses = (midWord []).responses ++ [r] ∧ r.status = .ok :=
  ⟨⟨_, rfl⟩, ⟨_, rfl⟩, _, ⟨.ok, 0, []⟩, rfl, rfl, rfl⟩

/-- A cursor inside a byte, and the cursor at the capacity. -/
theorem witness_DrainReturnsTheWrittenPrefix :
    (midWord []).CursorInRange ∧ (midWord []).ZeroBeyondCursor ∧ (midWord []).cursor % 8 ≠ 0 ∧
      (fullPadded []).CursorInRange := by decide

/-- Two cursors that end in the same byte over equal bits, the room left being 27 bits. -/
theorem witness_DrainHidesTheExactCursor :
    (blockAt 4 5 [0x1D#64] []).CursorInRange ∧ (blockAt 4 8 [0x1D#64] []).CursorInRange ∧
      (blockAt 4 5 [0x1D#64] []).capBytes = (blockAt 4 8 [0x1D#64] []).capBytes ∧
      (∀ k < 64 * (blockAt 4 5 [0x1D#64] []).wordCount,
        (blockAt 4 5 [0x1D#64] []).storage.bitAt k = (blockAt 4 8 [0x1D#64] []).storage.bitAt k) ∧
      ((blockAt 4 5 [0x1D#64] []).cursor + 7) / 8 = ((blockAt 4 8 [0x1D#64] []).cursor + 7) / 8 ∧
      (blockAt 4 5 [0x1D#64] []).cursor < (blockAt 4 8 [0x1D#64] []).cursor ∧
      8 * (blockAt 4 5 [0x1D#64] []).capBytes ≤ (blockAt 4 5 [0x1D#64] []).cursor + 32 :=
  ⟨by decide, by decide, rfl, fun _ _ => rfl, rfl, by decide, by decide⟩

theorem witness_EqualBitsAreEqualStorage :
    Memory.wf [(0, 1#8), (9, 2#8)] ∧ ∀ k, Memory.bitAt [(0, 1#8), (9, 2#8)] k = Memory.bitAt [(0, 1#8), (9, 2#8)] k :=
  ⟨by decide, fun _ => rfl⟩

theorem witness_BlockRefinesTheBitStream :
    (midWord []).CursorInRange ∧ (midWord []).Holds [true, false, true, true, true] := by decide

theorem witness_RunIsTheFoldOfItsCommands : (1 : Nat) ≤ 1 := by decide

/-- S2: a WRITE that fits and one that does not, on one byte. -/
theorem witness_CursorIsTheSumOfAcceptedWidths :
    (1 : Nat) ≤ 1 ∧ ∃ t : State,
      Sys2Proof.core.run 2 ((State.powerOn 1).issuing [0x08000000FF#40, 0x0100000001#40]) = .next t :=
  ⟨by decide, _, rfl⟩

/-- S1: two fields, the second after the first. -/
theorem witness_StorageIsTheAcceptedFields :
    (1 : Nat) ≤ 4 ∧ ∃ t : State,
      Sys2Proof.core.run 2 ((State.powerOn 4).issuing [0x0300000005#40, 0x0200000003#40]) = .next t ∧
        acceptedFields (List.zip [0x0300000005#40, 0x0200000003#40] t.responses) = [(5#32, 3)] ++ (3#32, 2) :: [] :=
  ⟨by decide, _, rfl, by decide⟩

/-- S4: 8N bits in two WRITEs. -/
theorem witness_OverflowBoundary :
    (1 : Nat) ≤ 5 ∧ (∀ f ∈ [(0xAA#32, 8), (0xDEADBEEF#32, 32)], 1 ≤ f.2 ∧ f.2 ≤ 32) ∧
      totalWidth [(0xAA#32, 8), (0xDEADBEEF#32, 32)] ≤ 8 * 5 := by decide

theorem witness_ResetBlockAnswersAsAFreshOne :
    (fullPadded []).StorageInForm ∧ ∃ t, exec .reset (fullPadded []) = .next t := ⟨by decide, _, rfl⟩

end Sys2Proof.Tests
end

section
/-! The block's state after power-on and after RESET (R31, R100, R140). -/

namespace Sys2Proof.Machine

/-- A word whose 64 storage bits are all zero is zero. -/
theorem Memory.wordAt_eq_zero {m : Memory} {w : Nat} (h : ∀ i < 64, m.bitAt (64 * w + i) = false) :
    m.wordAt w = 0#64 := by
  apply BitVec.eq_of_getLsbD_eq
  intro i hi
  rw [m.getLsbD_wordAt w i hi, h i hi, BitVec.getLsbD_zero]

@[simp] theorem Memory.wordAt_nil (w : Nat) : Memory.wordAt [] w = 0#64 :=
  Memory.wordAt_eq_zero fun _ _ => Memory.bitAt_nil _

/-- RESET leaves every bit of the storage words zero, the padding bits among them (R101). -/
theorem State.bitAt_clearedStorage_of_lt (s : State) {k : Nat} (hk : k < 64 * s.wordCount) :
    s.clearedStorage.bitAt k = false := by
  rw [s.bitAt_clearedStorage, if_pos hk]

theorem State.wordAt_clearedStorage_of_lt (s : State) {w : Nat} (hw : w < s.wordCount) :
    s.clearedStorage.wordAt w = 0#64 :=
  Memory.wordAt_eq_zero fun _ _ => s.bitAt_clearedStorage_of_lt (by omega)

/-- A RESET command answers in every state, and this is the state it answers (R100, R102). -/
theorem exec_reset_eq (s : State) :
    exec .reset s =
      .next { s with storage := s.clearedStorage, cursor := 0, responses := s.responses ++ [⟨.ok, 0, []⟩] } := rfl

/-- Settles O12: the power-on storage lists no byte, so every word and bit of it reads as zero; RESET clears every bit of
the `W` words whatever they held, and the padding bits lie below `64 * W`. -/
theorem resetValues : Obligations.ResetValues := by
  unfold Obligations.ResetValues
  refine ⟨fun capBytes _ => ?powerOn, fun s => ?reset⟩
  case powerOn =>
    exact ⟨State.powerOn_cursor capBytes, fun w _ => Memory.wordAt_nil w, fun k _ _ => Memory.bitAt_nil k, rfl⟩
  case reset =>
    exact ⟨_, exec_reset_eq s, rfl, fun _ hw => s.wordAt_clearedStorage_of_lt hw,
      fun _ _ hk => s.bitAt_clearedStorage_of_lt hk, rfl⟩

end Sys2Proof.Machine
end

section
/-! Side effects of the commands (R47): RESET is idempotent, DRAIN leaves no trace in the block, WRITE moves the cursor. -/

namespace Sys2Proof.Machine

/-- Writing zero to a byte drops its cells. -/
theorem Memory.setByte_zero (m : Memory) (j : Nat) : m.setByte j 0#8 = m.filter (fun c => c.1 != j) := rfl

/-- Writing zero to a word drops the cells of its eight bytes. In every storage, the canonical form or not. -/
theorem Memory.setWord_zero (m : Memory) (w : Nat) : m.setWord w 0#64 = m.filter (fun c => c.1 / 8 != w) := by
  simp only [Memory.setWord_eq, BitVec.extractLsb'_zero, Memory.setByte_zero, List.filter_filter]
  refine List.filter_congr fun c _ => Bool.eq_iff_iff.2 ?_
  simp only [Bool.and_eq_true, bne_iff_ne]
  omega

/-- Clearing the first `n` words keeps just the cells past them, in their order (R101). -/
theorem clearWords_eq_filter (m : Memory) (n : Nat) :
    (List.range n).foldl (fun m w => m.setWord w 0#64) m = m.filter (fun c => 8 * n ≤ c.1) := by
  induction n with
  | zero => simp
  | succ n ih =>
    rw [List.range_succ, List.foldl_append, ih, List.foldl_cons, List.foldl_nil, Memory.setWord_zero,
      List.filter_filter]
    refine List.filter_congr fun c _ => Bool.eq_iff_iff.2 ?_
    simp only [Bool.and_eq_true, bne_iff_ne, decide_eq_true_eq]
    omega

theorem State.clearedStorage_eq_filter (s : State) :
    s.clearedStorage = s.storage.filter (fun c => 8 * s.wordCount ≤ c.1) :=
  clearWords_eq_filter s.storage s.wordCount

/-- After a RESET there is nothing left to clear. -/
theorem clearedStorage_of_exec_reset {s t : State} (h : exec .reset s = .next t) : t.clearedStorage = t.storage := by
  obtain rfl := Host.Outcome.next.inj ((exec_reset_eq s).symm.trans h)
  rw [State.clearedStorage_eq_filter]
  refine List.filter_eq_self.2 fun c hc => ?_
  rw [s.clearedStorage_eq_filter] at hc
  exact (List.mem_filter.1 hc).2

/-- The response DRAIN gives: the bytes up to the cursor (R105, R106). -/
def State.drainResponse (s : State) : Response :=
  ⟨.ok, drainLength s.cursor, (List.range (drainLength s.cursor)).map s.storage.byteAt⟩

/-- DRAIN answers exactly when the cursor is within the capacity, and then only the responses change (R104, R107). -/
theorem exec_drain_eq_next_iff {s t : State} :
    exec .drain s = .next t ↔ s.CursorInRange ∧ t = { s with responses := s.responses ++ [s.drainResponse] } := by
  change execDrain s = .next t ↔ _
  rw [execDrain_eq]
  split
  · next hc => exact ⟨fun h => ⟨hc, (Host.Outcome.next.inj h).symm⟩, fun ⟨_, ht⟩ => ht ▸ rfl⟩
  · next hc => exact ⟨nofun, fun ⟨hc', _⟩ => absurd hc' hc⟩

/-- A WRITE that answers was turned away with an error, or moved the cursor by its width and changed the storage. -/
theorem exec_write_next_cases {value : FieldValue} {n : Nat} {s t : State} (h : exec (.write value n) s = .next t) :
    (∃ error, error ≠ .ok ∧ t = { s with responses := s.responses ++ [⟨error, 0, []⟩] }) ∨
    (1 ≤ n ∧ ∃ m, t = { s with storage := m, cursor := s.cursor + n, responses := s.responses ++ [⟨.ok, 0, []⟩] }) := by
  change execWrite value n s = .next t at h
  rcases execWrite_cases value n s with ⟨-, he⟩ | ⟨-, -, -, he⟩ | ⟨hn, -, -, m, he, -⟩
  · exact .inl ⟨.invalidArgument, by decide, Host.Outcome.next.inj (h.symm.trans he)⟩
  · exact .inl ⟨.bufferExhausted, by decide, Host.Outcome.next.inj (h.symm.trans he)⟩
  · exact .inr ⟨hn, m, Host.Outcome.next.inj (h.symm.trans he)⟩

/-- Settles O37: DRAIN leaves all it reads, so a second one reads the same; RESET drops the cells of the `W` words, and a
second one finds none to drop; a WRITE adds its width, at least 1, to the cursor or answers an error. -/
theorem sideEffectsAndIdempotency : Obligations.SideEffectsAndIdempotency := by
  unfold Obligations.SideEffectsAndIdempotency
  refine ⟨fun s t h => ?drain, fun s t h => ?reset, fun s t value n r h hr => ?write⟩
  case drain =>
    obtain ⟨hc, rfl⟩ := exec_drain_eq_next_iff.1 h
    exact ⟨⟨rfl, rfl, rfl⟩, rfl, _, s.drainResponse, exec_drain_eq_next_iff.2 ⟨hc, rfl⟩, rfl, rfl⟩
  case reset =>
    have hfix := clearedStorage_of_exec_reset h
    obtain rfl := Host.Outcome.next.inj ((exec_reset_eq s).symm.trans h)
    exact ⟨_, exec_reset_eq _, ⟨rfl, rfl, hfix.symm⟩, rfl⟩
  case write =>
    rcases exec_write_next_cases h with ⟨error, herr, rfl⟩ | ⟨hn, m, rfl⟩
    · obtain rfl : (⟨error, 0, []⟩ : Response) = r := by simpa using hr
      exact ⟨rfl, rfl, fun hok => absurd hok herr⟩
    · exact ⟨rfl, rfl, fun _ => Nat.lt_add_of_pos_right hn⟩

end Sys2Proof.Machine
end

section
/-! The words of storage after a WRITE that fits (R82 to R85), and that its ORs are a plain store (R88). -/

namespace Sys2Proof.Machine

/-- The masked field, computed on numbers (R15, R85). -/
theorem maskedField_eq_ofNat (value : FieldValue) {n : Nat} (hn : n ≤ 32) :
    maskedField value n = BitVec.ofNat 64 (value.toNat &&& (2 ^ n - 1)) := by
  apply BitVec.eq_of_getLsbD_eq
  intro i hi
  rw [getLsbD_maskedField value hn, BitVec.getLsbD_ofNat, Nat.testBit_and, Nat.testBit_two_pow_sub_one,
    BitVec.testBit_toNat, decide_eq_true hi, Bool.true_and, Bool.and_comm]

/-- The OR of a word answers for an index below `W`, and then it is a word write (R13, R49). -/
theorem Memory.orWord_eq_some_iff {m m' : Memory} {wordCount w : Nat} {v : Word} :
    m.orWord wordCount w v = some m' ↔ w < wordCount ∧ m.setWord w (m.wordAt w ||| v) = m' :=
  Option.ite_none_right_eq_some.trans (and_congr_right' Option.some_inj)

/-- The word that was ORed (R82). -/
theorem Memory.wordAt_of_orWord_self {m m' : Memory} {wordCount w : Nat} {v : Word}
    (h : m.orWord wordCount w v = some m') : m'.wordAt w = m.wordAt w ||| v := by
  obtain ⟨-, rfl⟩ := Memory.orWord_eq_some_iff.1 h
  rw [Memory.wordAt_setWord, if_pos rfl]

/-- The OR of a word leaves every other word as it was (R82). -/
theorem Memory.wordAt_of_orWord_of_ne {m m' : Memory} {wordCount w u : Nat} {v : Word}
    (h : m.orWord wordCount w v = some m') (hu : u ≠ w) : m'.wordAt u = m.wordAt u := by
  obtain ⟨-, rfl⟩ := Memory.orWord_eq_some_iff.1 h
  rw [Memory.wordAt_setWord, if_neg hu]

/-- A deposit is the OR of the current word alone, or that and then the OR of the next word (R82, R83). -/
theorem Memory.deposit_cases {m m' : Memory} {wordCount c n : Nat} {field : Word}
    (h : m.deposit wordCount c field n = some m') :
    ∃ m₁, m.orWord wordCount (wordIndex c) (currentPart field (wordShift c)) = some m₁ ∧
      ((¬ spansTwoWords c n ∧ m' = m₁) ∨
        (spansTwoWords c n ∧ m₁.orWord wordCount (wordIndex c + 1) (nextPart field (wordShift c)) = some m')) := by
  obtain ⟨m₁, h₁, h₂⟩ := Option.bind_eq_some_iff.1 h
  refine ⟨m₁, h₁, ?_⟩
  split at h₂
  · next hspan => exact .inr ⟨hspan, h₂⟩
  · next hspan => exact .inl ⟨hspan, (Option.some.inj h₂).symm⟩

/-- Reading a word after a deposit: the current word and, for a field that spans, the next one are ORed with the field's
two parts, and every other word is as it was (R82, R83). -/
theorem Memory.wordAt_of_deposit {m m' : Memory} {wordCount c n : Nat} {field : Word}
    (h : m.deposit wordCount c field n = some m') :
    m'.wordAt (wordIndex c) = m.wordAt (wordIndex c) ||| currentPart field (wordShift c) ∧
    (spansTwoWords c n →
      m'.wordAt (wordIndex c + 1) = m.wordAt (wordIndex c + 1) ||| nextPart field (wordShift c)) ∧
    (¬ spansTwoWords c n → m'.wordAt (wordIndex c + 1) = m.wordAt (wordIndex c + 1)) ∧
    ∀ u, u ≠ wordIndex c → u ≠ wordIndex c + 1 → m'.wordAt u = m.wordAt u := by
  have hsucc : wordIndex c + 1 ≠ wordIndex c := Nat.succ_ne_self _
  obtain ⟨m₁, hcur, ⟨hspan, rfl⟩ | ⟨hspan, hnext⟩⟩ := Memory.deposit_cases h
  case inl =>
    exact ⟨Memory.wordAt_of_orWord_self hcur, fun hs => absurd hs hspan,
      fun _ => Memory.wordAt_of_orWord_of_ne hcur hsucc, fun _ hu _ => Memory.wordAt_of_orWord_of_ne hcur hu⟩
  case inr =>
    refine ⟨?_, fun _ => ?_, fun hs => absurd hspan hs, fun u hu hu' => ?_⟩
    · rw [Memory.wordAt_of_orWord_of_ne hnext hsucc.symm, Memory.wordAt_of_orWord_self hcur]
    · rw [Memory.wordAt_of_orWord_self hnext, Memory.wordAt_of_orWord_of_ne hcur hsucc]
    · rw [Memory.wordAt_of_orWord_of_ne hnext hu', Memory.wordAt_of_orWord_of_ne hcur hu]

/-- A WRITE of a legal width that fits answers OK: the cursor advances by the width, and storage is the deposit of the
masked field (R81, R84, R85). -/
theorem exec_write_of_fits {s : State} (value : FieldValue) {n : Nat} (h1 : 1 ≤ n) (h32 : n ≤ 32)
    (hfit : s.cursor + n ≤ 8 * s.capBytes) :
    ∃ m, exec (.write value n) s =
        .next { s with storage := m, cursor := s.cursor + n, responses := s.responses ++ [⟨.ok, 0, []⟩] } ∧
      s.storage.deposit s.wordCount s.cursor (BitVec.ofNat 64 (value.toNat &&& (2 ^ n - 1))) n = some m := by
  rw [← maskedField_eq_ofNat value h32]
  rcases execWrite_cases value n s with ⟨hbad, -⟩ | ⟨-, -, hover, -⟩ | ⟨-, -, -, m, hrun, hdep, -⟩
  · omega
  · omega
  · exact ⟨m, hrun, hdep⟩

/-- Settles O27: the deposit is at most two ORs, of the current and of the next word. -/
theorem writeDepositsIntoWords : Obligations.WriteDepositsIntoWords := by
  unfold Obligations.WriteDepositsIntoWords
  intro s value n h1 h32 hfit
  obtain ⟨m, hrun, hdep⟩ := exec_write_of_fits value h1 h32 hfit
  obtain ⟨hcur, hnext, hnext', hother⟩ := Memory.wordAt_of_deposit hdep
  refine ⟨_, ⟨.ok, 0, []⟩, hrun, rfl, rfl, hcur, fun hspan => ⟨?_, ?_, hnext hspan⟩,
    fun hspan => hnext' (Nat.not_lt.2 hspan), hother, rfl, hfit⟩
  · omega
  · omega

/-- The part of a field that goes into the current word has no bit below the shift (R88). -/
theorem getLsbD_currentPart_of_lt (field : Word) {shift b : Nat} (hb : b < shift) :
    (currentPart field shift).getLsbD b = false := by
  simp [currentPart, hb]

/-- From the zero invariant, the part of a field that goes into the current word meets only zero bits there (R88). -/
theorem State.ZeroBeyondCursor.wordAt_and_currentPart {s : State} (hz : s.ZeroBeyondCursor)
    (hw : wordIndex s.cursor < s.wordCount) (field : Word) :
    s.storage.wordAt (wordIndex s.cursor) &&& currentPart field (wordShift s.cursor) = 0#64 := by
  apply BitVec.eq_of_getLsbD_eq
  intro i hi
  rw [BitVec.getLsbD_and, BitVec.getLsbD_zero]
  by_cases hbelow : i < wordShift s.cursor
  · rw [getLsbD_currentPart_of_lt field hbelow, Bool.and_false]
  · have hpast : s.cursor ≤ 64 * wordIndex s.cursor + i := by unfold wordIndex wordShift at *; omega
    rw [Memory.getLsbD_wordAt _ _ _ hi, hz _ (by omega) hpast, Bool.false_and]

/-- From the zero invariant, the word after the cursor's is zero (R88). -/
theorem State.ZeroBeyondCursor.wordAt_next {s : State} (hz : s.ZeroBeyondCursor)
    (hw : wordIndex s.cursor + 1 < s.wordCount) : s.storage.wordAt (wordIndex s.cursor + 1) = 0#64 :=
  Memory.wordAt_eq_zero fun i hi => hz _ (by omega) (by unfold wordIndex; omega)

/-- Clearing bits that are zero already changes nothing. -/
theorem and_not_eq_self_of_and_eq_zero {width : Nat} {x y : BitVec width} (h : x &&& y = 0#width) : x &&& ~~~y = x := by
  calc x &&& ~~~y = (x &&& y) ||| (x &&& ~~~y) := by rw [h, BitVec.zero_or]
    _ = x &&& (y ||| ~~~y) := BitVec.and_or_distrib_left.symm
    _ = x := by simp

/-- Settles O30: from the zero invariant the current word is zero from the cursor's bit up and the next word is zero, so
what the ORs meet, and what a clear would remove, is nothing. -/
theorem orIsAPlainStore : Obligations.OrIsAPlainStore := by
  unfold Obligations.OrIsAPlainStore
  intro s value n hz h1 h32 hfit
  obtain ⟨m, hrun, hdep⟩ := exec_write_of_fits value h1 h32 hfit
  obtain ⟨hcur, hnext, -, -⟩ := Memory.wordAt_of_deposit hdep
  have hwords : s.cursor + n ≤ 64 * s.wordCount := by unfold State.wordCount; omega
  have hw : wordIndex s.cursor < s.wordCount := by unfold wordIndex; omega
  have hmeet := hz.wordAt_and_currentPart hw (BitVec.ofNat 64 (2 ^ n - 1))
  refine ⟨_, hrun, hmeet, fun b hb => getLsbD_currentPart_of_lt _ hb, ?current, fun hspan => ?next⟩
  case current => exact hcur.trans (congrArg (· ||| _) (and_not_eq_self_of_and_eq_zero hmeet).symm)
  case next =>
    have hzero := hz.wordAt_next (by unfold wordIndex; omega)
    exact ⟨hzero, (hnext hspan).trans (by rw [hzero, BitVec.zero_or]; rfl)⟩

end Sys2Proof.Machine
end

section
/-! The response of DRAIN (R105, R106): its length, its bytes, and the zero bits that pad its last byte. -/

namespace Sys2Proof.Machine

/-- Bit `b` of byte `j` is storage bit `8j + b` (R40). -/
theorem Memory.getLsbD_byteAt (m : Memory) (j : Nat) {b : Nat} (hb : b < 8) :
    (m.byteAt j).getLsbD b = m.bitAt (8 * j + b) := by
  rw [Memory.bitAt, Nat.mul_add_div (by decide), Nat.mul_add_mod, Nat.div_eq_of_lt hb, Nat.mod_eq_of_lt hb,
    Nat.add_zero]

/-- The drained bytes stay within the capacity (R105). -/
theorem State.CursorInRange.drainLength_le {s : State} (hc : s.CursorInRange) : drainLength s.cursor ≤ s.capBytes := by
  unfold State.CursorInRange State.capacityBits at hc
  unfold drainLength
  omega

@[simp] theorem State.length_data_drainResponse (s : State) :
    s.drainResponse.data.length = drainLength s.cursor := by
  simp [State.drainResponse]

/-- The data of DRAIN, byte by byte (R106). -/
theorem State.getElem?_data_drainResponse (s : State) {j : Nat} (hj : j < drainLength s.cursor) :
    s.drainResponse.data[j]? = some (s.storage.byteAt j) := by
  simp [State.drainResponse, hj]

/-- When the cursor stands inside a byte, that byte is the last one drained. -/
theorem drainLength_sub_one {cursor : Nat} (h : cursor % 8 ≠ 0) : drainLength cursor - 1 = cursor / 8 := by
  unfold drainLength
  omega

/-- From the zero invariant, the byte the cursor stands in is zero from the cursor's bit up (R24, R106). -/
theorem State.ZeroBeyondCursor.getLsbD_byteAt_cursor {s : State} (hz : s.ZeroBeyondCursor) (hc : s.CursorInRange)
    (hpart : s.cursor % 8 ≠ 0) {b : Nat} (hle : s.cursor % 8 ≤ b) (hb : b < 8) :
    (s.storage.byteAt (s.cursor / 8)).getLsbD b = false := by
  have hcap : s.cursor ≤ 8 * s.capBytes := hc
  have hin : 8 * (s.cursor / 8) + b < 64 * s.wordCount := by unfold State.wordCount; omega
  rw [Memory.getLsbD_byteAt _ _ hb]
  exact hz _ hin (by omega)

/-- Settles O38: DRAIN answers `drainResponse`, whose bytes are read from storage one by one; its last byte is the one the
cursor stands in, whose bits past the cursor the zero invariant covers, a partial byte within the capacity being whole
within the words. -/
theorem drainReturnsTheWrittenPrefix : Obligations.DrainReturnsTheWrittenPrefix := by
  unfold Obligations.DrainReturnsTheWrittenPrefix
  intro s hc
  refine ⟨s.drainResponse, exec_drain_eq_next_iff.2 ⟨hc, rfl⟩, rfl, rfl, hc.drainLength_le,
    s.length_data_drainResponse, fun _ hj => s.getElem?_data_drainResponse hj, fun hz hpart b hle hb => ?lastByte⟩
  case lastByte =>
    have hlast : s.drainResponse.len - 1 = s.cursor / 8 := drainLength_sub_one hpart
    rw [hlast]
    exact hz.getLsbD_byteAt_cursor hc hpart hle hb

end Sys2Proof.Machine
end

section
/-! Failed commands (R122, R123): the error is all they leave, so the state is the old one with a response more. -/

namespace Sys2Proof.Machine

/-- The host can tell which response was added last. -/
theorem eq_of_responses_eq_append {s : State} {a r : Response}
    (h : s.responses ++ [a] = s.responses ++ [r]) : a = r :=
  List.singleton_inj.1 (List.append_cancel_left h)

/-- A command that answers gave the status OK, or did nothing but give an error without data (R14, R123). -/
theorem exec_next_ok_or_raise {i : Instr} {s t : State} (h : exec i s = .next t) :
    (∃ len data, t.responses = s.responses ++ [⟨.ok, len, data⟩]) ∨
    ∃ error, t = { s with responses := s.responses ++ [⟨error, 0, []⟩] } := by
  rcases exec_next_cases h with ⟨_, _, -, -, hinvalid⟩ | ⟨_, _, -, -, -, -, hexhausted⟩ |
    ⟨_, _, -, -, -, -, hwritten, -⟩ | ⟨-, hreset⟩ | ⟨-, -, hdrained⟩ | ⟨-, hillegal⟩
  · exact .inr ⟨.invalidArgument, hinvalid⟩
  · exact .inr ⟨.bufferExhausted, hexhausted⟩
  · exact .inl ⟨_, _, congrArg State.responses hwritten⟩
  · exact .inl ⟨_, _, congrArg State.responses hreset⟩
  · exact .inl ⟨_, _, congrArg State.responses hdrained⟩
  · exact .inr ⟨.illegalCommand, hillegal⟩

/-- A failed command adds its response, which carries the status alone, and does nothing else (R123). -/
theorem eq_of_exec_failed {i : Instr} {s t : State} {r : Response} (h : exec i s = .next t)
    (hr : t.responses = s.responses ++ [r]) (hfail : r.status ≠ .ok) :
    t = { s with responses := s.responses ++ [r] } ∧ r.len = 0 ∧ r.data = [] := by
  rcases exec_next_ok_or_raise h with ⟨len, data, hok⟩ | ⟨error, rfl⟩
  case inl =>
    obtain rfl := eq_of_responses_eq_append (hok.symm.trans hr)
    exact absurd rfl hfail
  case inr =>
    obtain rfl := eq_of_responses_eq_append hr
    exact ⟨rfl, rfl, rfl⟩

/-- Settles O24: a command that answers another status than OK ended in `raise`, which touches the responses only. -/
theorem failedCommandHasNoEffect : Obligations.FailedCommandHasNoEffect := by
  unfold Obligations.FailedCommandHasNoEffect
  intro i s t r h hr hfail
  obtain ⟨rfl, hlen, hdata⟩ := eq_of_exec_failed h hr hfail
  exact ⟨rfl, fun _ => rfl, rfl, rfl, rfl, hlen, hdata⟩

/-- A WRITE of a legal width that does not fit is turned away with BufferExhausted (R122). -/
theorem exec_write_of_overflow {s : State} (value : FieldValue) {n : Nat} (h1 : 1 ≤ n) (h32 : n ≤ 32)
    (hover : 8 * s.capBytes < s.cursor + n) :
    exec (.write value n) s = .next { s with responses := s.responses ++ [⟨.bufferExhausted, 0, []⟩] } := by
  rcases execWrite_cases value n s with ⟨hbad, -⟩ | ⟨-, -, -, hrun⟩ | ⟨-, -, hfit, -⟩
  · omega
  · exact hrun
  · omega

/-- Settles O23: of the three outcomes of WRITE's checks, a legal width past the capacity leaves only BufferExhausted. -/
theorem writeRejectsOverflow : Obligations.WriteRejectsOverflow := by
  unfold Obligations.WriteRejectsOverflow
  intro s value n h1 h32 hover
  exact ⟨⟨.bufferExhausted, 0, []⟩, exec_write_of_overflow value h1 h32 hover, rfl, rfl, rfl, rfl⟩

end Sys2Proof.Machine
end

section
/-! The command word (R60 to R73): its three fields, the decoder by opcode, and that decoder and encoder agree. -/

namespace Sys2Proof

/-! ### The fields of a packed word -/

@[simp] theorem opField_packCmd (op : BitVec 2) (bitCount : BitVec 6) (value : FieldValue) :
    opField (packCmd op bitCount value) = op := by
  apply BitVec.eq_of_getLsbD_eq
  intro i hi
  simp only [opField, packCmd, BitVec.getLsbD_extractLsb', BitVec.getLsbD_append]
  simp [hi, show ¬ 38 + i < 32 by omega, show ¬ 38 + i - 32 < 6 by omega, show 38 + i - 32 - 6 = i by omega]

@[simp] theorem bitCountField_packCmd (op : BitVec 2) (bitCount : BitVec 6) (value : FieldValue) :
    bitCountField (packCmd op bitCount value) = bitCount := by
  apply BitVec.eq_of_getLsbD_eq
  intro i hi
  simp only [bitCountField, packCmd, BitVec.getLsbD_extractLsb', BitVec.getLsbD_append]
  simp [hi]

@[simp] theorem valueField_packCmd (op : BitVec 2) (bitCount : BitVec 6) (value : FieldValue) :
    valueField (packCmd op bitCount value) = value := by
  apply BitVec.eq_of_getLsbD_eq
  intro i hi
  simp only [valueField, packCmd, BitVec.getLsbD_extractLsb', BitVec.getLsbD_append]
  simp [hi]

/-- A command word is its three fields (R60). -/
theorem packCmd_fields (w : CmdWord) : packCmd (opField w) (bitCountField w) (valueField w) = w := by
  apply BitVec.eq_of_getLsbD_eq
  intro i hi
  simp only [opField, bitCountField, valueField, packCmd, BitVec.getLsbD_extractLsb', BitVec.getLsbD_append]
  split_ifs with hvalue hcount
  · simp [hvalue]
  · simp [hcount, show 32 + (i - 32) = i by omega]
  · simp [show i - 32 - 6 < 2 by omega, show 38 + (i - 32 - 6) = i by omega]

/-! ### The decoder by opcode (R61) -/

/-- The four commands, each with the opcode it is decoded from. -/
theorem decode_cases (w : CmdWord) :
    (opField w = 0b00#2 ∧ decode w = .write (valueField w) (bitCountField w).toNat) ∨
    (opField w = 0b01#2 ∧ decode w = .reset) ∨
    (opField w = 0b10#2 ∧ decode w = .drain) ∨
    (opField w = 0b11#2 ∧ decode w = .reserved) := by
  unfold decode
  generalize opField w = op
  split_ifs with hwrite hreset hdrain
  · exact .inl ⟨hwrite, rfl⟩
  · exact .inr (.inl ⟨hreset, rfl⟩)
  · exact .inr (.inr (.inl ⟨hdrain, rfl⟩))
  · exact .inr (.inr (.inr ⟨by bv_omega, rfl⟩))

theorem decode_of_opField_zero {w : CmdWord} (h : opField w = 0b00#2) :
    decode w = .write (valueField w) (bitCountField w).toNat := by simp [decode, h]

theorem decode_of_opField_one {w : CmdWord} (h : opField w = 0b01#2) : decode w = .reset := by simp [decode, h]

theorem decode_of_opField_two {w : CmdWord} (h : opField w = 0b10#2) : decode w = .drain := by simp [decode, h]

theorem decode_of_opField_three {w : CmdWord} (h : opField w = 0b11#2) : decode w = .reserved := by simp [decode, h]

/-- A decoded command has the opcode of its word. -/
theorem opcode_decode (w : CmdWord) : Laws.OpcodeMap.opcode (decode w) = opField w := by
  rcases decode_cases w with ⟨hop, hd⟩ | ⟨hop, hd⟩ | ⟨hop, hd⟩ | ⟨hop, hd⟩ <;> rw [hop, hd] <;> rfl

/-- Where `op` is not WRITE's, nothing else of the word is read (R64, R65). -/
theorem decode_eq_of_opField_eq {w w' : CmdWord} (h : opField w = opField w') (hw : opField w ≠ 0b00#2) :
    decode w = decode w' := by
  simp only [decode, ← h, if_neg hw]

/-- No bit of a WRITE is ignored (R60, R62, R63). -/
theorem eq_of_decode_eq_of_write {w w' : CmdWord} (h : decode w = decode w') (hw : opField w = 0b00#2)
    (hw' : opField w' = 0b00#2) : w = w' := by
  rw [decode_of_opField_zero hw, decode_of_opField_zero hw', Instr.write.injEq, BitVec.toNat_inj] at h
  obtain ⟨hvalue, hcount⟩ := h
  rw [← packCmd_fields w, ← packCmd_fields w', hvalue, hcount, hw, hw']

/-! ### The obligations -/

/-- Settles O2: the encoder packs the fields the decoder reads, and six bits hold a bitCount below 64. -/
theorem decodeEncodeRoundTrip : Obligations.DecodeEncodeRoundTrip := by
  unfold Obligations.DecodeEncodeRoundTrip
  intro i hi
  cases i with
  | write value bitCount =>
    have hlt : bitCount < 64 := of_decide_eq_true hi
    have hcount : (BitVec.ofNat 6 bitCount).toNat = bitCount := by
      rw [BitVec.toNat_ofNat]; exact Nat.mod_eq_of_lt hlt
    rw [encode, decode_of_opField_zero (opField_packCmd _ _ _), valueField_packCmd, bitCountField_packCmd, hcount]
  | reset => exact decode_of_opField_one (opField_packCmd _ _ _)
  | drain => exact decode_of_opField_two (opField_packCmd _ _ _)
  | reserved => exact decode_of_opField_three (opField_packCmd _ _ _)

/-- Settles O3: the opcode is read off the decoded command; past it, WRITE shows every other bit and the rest none. -/
theorem decodeReadsExactlyTheMeaningfulBits : Obligations.DecodeReadsExactlyTheMeaningfulBits := by
  unfold Obligations.DecodeReadsExactlyTheMeaningfulBits
  refine fun w w' => ⟨fun h => ?_, fun ⟨hop, hwrite⟩ => ?_⟩
  · have hop : opField w = opField w' := by rw [← opcode_decode, h, opcode_decode]
    exact ⟨hop, fun hw => eq_of_decode_eq_of_write h hw (hop ▸ hw)⟩
  · by_cases hw : opField w = 0b00#2
    · rw [hwrite hw]
    · exact decode_eq_of_opField_eq hop hw

/-- A word whose operand bits are zero is its opcode followed by 38 zeros. -/
theorem packCmd_zero_operands (op : BitVec 2) : packCmd op 0#6 0#32 = op ++ 0#38 := by
  rw [packCmd, BitVec.append_assoc]
  rfl

/-- Settles O4: a WRITE is packed from the fields it was read from, and every other command from its opcode alone. -/
theorem encodeDecodeIsCanonical : Obligations.EncodeDecodeIsCanonical := by
  unfold Obligations.EncodeDecodeIsCanonical
  intro w
  rcases decode_cases w with ⟨hop, hd⟩ | ⟨hop, hd⟩ | ⟨hop, hd⟩ | ⟨hop, hd⟩
  case inl =>
    rw [hd, if_pos hop]
    refine ⟨decide_eq_true (bitCountField w).isLt, ?_⟩
    rw [encode, BitVec.ofNat_toNat, BitVec.setWidth_eq, ← hop, packCmd_fields]
  all_goals
    rw [hd, hop]
    exact ⟨rfl, packCmd_zero_operands _⟩

/-- Settles O5: appending the 32 bits of the value is a shift and an OR. -/
theorem writeWordArithmetic : Obligations.WriteWordArithmetic := by
  unfold Obligations.WriteWordArithmetic
  intro value n hn
  have hcount : (0b00#2 ++ BitVec.ofNat 6 n).toNat = n := by
    rw [BitVec.toNat_append, BitVec.toNat_ofNat, BitVec.toNat_ofNat]
    simpa using hn
  rw [encode, packCmd, BitVec.toNat_append, hcount]

/-- Settles O1: the decoder evaluated on each word. -/
theorem specWordsDecode : Obligations.SpecWordsDecode := by
  unfold Obligations.SpecWordsDecode
  decide

/-- Settles O6: the assembler evaluated on each line. -/
theorem assemblerWritesTheSpecWords : Obligations.AssemblerWritesTheSpecWords := by
  unfold Obligations.AssemblerWritesTheSpecWords
  decide

end Sys2Proof
end

section
/-! The three views of one storage (R40), and that the canonical form is determined by its bits (log 7). -/

namespace Sys2Proof.Machine

/-- `Bit(k)` is bit `k mod 64` of word `k div 64`. -/
theorem Memory.bitAt_eq_getLsbD_wordAt (m : Memory) (k : Nat) :
    m.bitAt k = (m.wordAt (k / 64)).getLsbD (k % 64) := by
  rw [Memory.getLsbD_wordAt _ _ _ (Nat.mod_lt k (by decide)), Nat.div_add_mod]

/-- Byte `j` is eight bits of word `j div 8`. -/
theorem Memory.byteAt_eq_extractLsb'_wordAt (m : Memory) (j : Nat) :
    m.byteAt j = (m.wordAt (j / 8)).extractLsb' (8 * (j % 8)) 8 := by
  apply BitVec.eq_of_getLsbD_eq
  intro b hb
  have hpos : 64 * (j / 8) + (8 * (j % 8) + b) = 8 * j + b := by omega
  rw [Memory.getLsbD_byteAt _ _ hb, BitVec.getLsbD_extractLsb', decide_eq_true hb, Bool.true_and,
    Memory.getLsbD_wordAt _ _ _ (by omega), hpos]

/-- Settles O40: the words and the bytes are both read bit by bit from one sequence. -/
theorem bitByteWordMapping : Obligations.BitByteWordMapping := by
  unfold Obligations.BitByteWordMapping
  exact ⟨fun m k => ⟨m.bitAt_eq_getLsbD_wordAt k, rfl⟩, Memory.byteAt_eq_extractLsb'_wordAt⟩

/-- Bytes whose eight bits agree are equal. -/
theorem Memory.byteAt_eq_of_bitAt_eq {m m' : Memory} {j : Nat} (h : ∀ b < 8, m.bitAt (8 * j + b) = m'.bitAt (8 * j + b)) :
    m.byteAt j = m'.byteAt j := by
  apply BitVec.eq_of_getLsbD_eq
  intro b hb
  rw [Memory.getLsbD_byteAt _ _ hb, Memory.getLsbD_byteAt _ _ hb, h b hb]

/-- A byte that does not read as zero is listed. -/
theorem Memory.mem_of_byteAt_ne {m : Memory} {j : Nat} (h : m.byteAt j ≠ Memory.unlisted) : (j, m.byteAt j) ∈ m := by
  induction m with
  | nil => exact absurd rfl h
  | cons c m ih =>
    rw [Memory.byteAt_cons] at h ⊢
    split at h
    · next hc =>
      rw [if_pos hc, ← hc]
      exact List.mem_cons_self
    · next hc =>
      rw [if_neg hc]
      exact List.mem_cons_of_mem _ (ih h)

/-- The cells of a storage in canonical form are its bytes other than zero. -/
theorem Memory.mem_iff_byteAt {m : Memory} (h : m.wf) {c : Host.Cell} :
    c ∈ m ↔ m.byteAt c.1 = c.2 ∧ c.2 ≠ Memory.unlisted := by
  refine ⟨fun hc => ⟨Memory.byteAt_of_mem h hc, h.2 c hc⟩, fun ⟨hread, hne⟩ => ?_⟩
  have hmem := Memory.mem_of_byteAt_ne (hread ▸ hne)
  rwa [hread] at hmem

/-- Settles O41: in canonical form the bytes determine the cells, and the rising addresses their order. -/
theorem equalBitsAreEqualStorage : Obligations.EqualBitsAreEqualStorage := by
  unfold Obligations.EqualBitsAreEqualStorage
  intro m m' hm hm' hbits
  have hbyte : ∀ j, m.byteAt j = m'.byteAt j := fun j => Memory.byteAt_eq_of_bitAt_eq fun b _ => hbits _
  have : Std.Irrefl fun c d : Host.Cell => c.1 < d.1 := ⟨fun c => Nat.lt_irrefl c.1⟩
  refine hm.1.eq_of_mem_iff hm'.1 fun c => ?_
  rw [Memory.mem_iff_byteAt hm, Memory.mem_iff_byteAt hm', hbyte]

end Sys2Proof.Machine
end

section
/-! What each command answers, as equations; that it depends on the block alone and touches the exchange only by the
response it appends (R50, R66). -/

namespace Sys2Proof.Machine

/-- A WRITE of a width outside `1 .. 32` is turned away whatever the cursor (R121). -/
theorem exec_write_of_badWidth (s : State) (value : FieldValue) {n : Nat} (hn : n = 0 ∨ 32 < n) :
    exec (.write value n) s = .next { s with responses := s.responses ++ [⟨.invalidArgument, 0, []⟩] } := by
  rcases execWrite_cases value n s with ⟨-, hrun⟩ | ⟨_, _, -⟩ | ⟨_, _, -⟩
  · exact hrun
  · omega
  · omega

theorem exec_reserved_eq (s : State) :
    exec .reserved s = .next { s with responses := s.responses ++ [⟨.illegalCommand, 0, []⟩] } := rfl

theorem exec_drain_of_inRange {s : State} (hc : s.CursorInRange) :
    exec .drain s = .next { s with responses := s.responses ++ [s.drainResponse] } :=
  exec_drain_eq_next_iff.2 ⟨hc, rfl⟩

/-- A WRITE that fits answers the deposit of its masked field (R82 to R85). -/
theorem exec_write_of_deposit {s : State} {value : FieldValue} {n : Nat} {m : Memory} (h1 : 1 ≤ n) (h32 : n ≤ 32)
    (hfit : s.cursor + n ≤ 8 * s.capBytes)
    (hdep : s.storage.deposit s.wordCount s.cursor (maskedField value n) n = some m) :
    exec (.write value n) s =
      .next { s with storage := m, cursor := s.cursor + n, responses := s.responses ++ [⟨.ok, 0, []⟩] } := by
  obtain ⟨m', hrun, hdep'⟩ := exec_write_of_fits value h1 h32 hfit
  rw [maskedField_eq_ofNat value h32, hdep', Option.some_inj] at hdep
  rw [hrun, hdep]

/-- Every command answers a next state, but for a DRAIN with the cursor past the capacity (R49). -/
theorem exists_exec_eq_next {i : Instr} {s : State} (h : i ≠ .drain ∨ s.CursorInRange) : ∃ t, exec i s = .next t := by
  cases i with
  | write value n =>
    rcases execWrite_cases value n s with ⟨-, hrun⟩ | ⟨-, -, -, hrun⟩ | ⟨-, -, -, m, hrun, -⟩
    · exact ⟨_, hrun⟩
    · exact ⟨_, hrun⟩
    · exact ⟨_, hrun⟩
  | reset => exact ⟨_, exec_reset_eq s⟩
  | drain => exact ⟨_, exec_drain_of_inRange (h.resolve_left (absurd rfl))⟩
  | reserved => exact ⟨_, exec_reserved_eq s⟩

/-- The only stop of a command is DRAIN's, with the cursor past the capacity (log 6). -/
theorem exec_eq_fault_iff {i : Instr} {s : State} {f : Fault} :
    exec i s = .fault f ↔ i = .drain ∧ ¬ s.CursorInRange := by
  refine ⟨fun hf => ?_, ?_⟩
  · by_contra hneither
    obtain ⟨t, ht⟩ := exists_exec_eq_next (i := i) (s := s) (by tauto)
    cases hf.symm.trans ht
  · rintro ⟨rfl, hpast⟩
    cases f
    exact (execDrain_eq s).trans (if_neg hpast)

/-- A state with another exchange with the host: the block is the same. -/
def State.withExchange (s : State) (inputs : List HostEvent) (responses : List Response) : State :=
  { s with inputs := inputs, responses := responses }

theorem SameBlock.eq_withExchange {s t : State} (h : SameBlock s t) : t = s.withExchange t.inputs t.responses := by
  obtain ⟨hcap, hcur, hsto⟩ := h
  cases t
  simp only [State.withExchange, hcap, hcur, hsto]

/-- A command appends its one response and does nothing else to the exchange, and under any other exchange it does the
same to the block and answers the same (R50). -/
theorem exec_next_withExchange {i : Instr} {s t : State} (h : exec i s = .next t) :
    ∃ r, t.responses = s.responses ++ [r] ∧ t.inputs = s.inputs ∧
      ∀ inputs responses, exec i (s.withExchange inputs responses) = .next (t.withExchange inputs (responses ++ [r])) := by
  rcases exec_next_cases h with ⟨value, n, rfl, hn, rfl⟩ | ⟨value, n, rfl, h1, h32, hover, rfl⟩ |
    ⟨value, n, rfl, h1, h32, hfit, ht, hdep, -⟩ | ⟨rfl, rfl⟩ | ⟨rfl, hc, rfl⟩ | ⟨rfl, rfl⟩
  · exact ⟨_, rfl, rfl, fun _ _ => exec_write_of_badWidth _ value hn⟩
  · exact ⟨_, rfl, rfl, fun _ _ => exec_write_of_overflow value h1 h32 hover⟩
  · rw [ht]
    exact ⟨_, rfl, rfl, fun _ _ => exec_write_of_deposit h1 h32 hfit hdep⟩
  · exact ⟨_, rfl, rfl, fun _ _ => exec_reset_eq _⟩
  · exact ⟨_, rfl, rfl, fun _ _ => exec_drain_of_inRange hc⟩
  · exact ⟨_, rfl, rfl, fun _ _ => exec_reserved_eq _⟩

/-- Two states of one block answer a command alike, and are left two states of one block (R50). -/
theorem exec_next_of_sameBlock {i : Instr} {s t s' : State} (hst : SameBlock s t) (h : exec i s = .next s') :
    ∃ t' r, exec i t = .next t' ∧ SameBlock s' t' ∧ t'.inputs = t.inputs ∧
      s'.responses = s.responses ++ [r] ∧ t'.responses = t.responses ++ [r] := by
  obtain ⟨r, hresp, -, hsame⟩ := exec_next_withExchange h
  refine ⟨s'.withExchange t.inputs (t.responses ++ [r]), r, ?_, ⟨rfl, rfl, rfl⟩, rfl, hresp, rfl⟩
  rw [hst.eq_withExchange]
  exact hsame _ _

/-- Settles O11: the block decides the outcome, the exchange only receives the response. -/
theorem commandDependsOnlyOnTheBlock : Obligations.CommandDependsOnlyOnTheBlock := by
  unfold Obligations.CommandDependsOnlyOnTheBlock
  refine fun i s t hst => ⟨fun f hf => ?_, fun s' h => ?_⟩
  · obtain ⟨hdrain, hpast⟩ := exec_eq_fault_iff.1 hf
    obtain ⟨hcap, hcur, -⟩ := hst
    rw [State.CursorInRange, State.capacityBits, hcap, hcur] at hpast
    exact exec_eq_fault_iff.2 ⟨hdrain, hpast⟩
  · obtain ⟨t', r, hrun, hsame, -, hs, ht⟩ := exec_next_of_sameBlock hst h
    exact ⟨t', r, hrun, hsame, hs, ht⟩

/-- Settles O25: a failed command leaves the block it found, and the next command depends on the block alone. -/
theorem commandAfterFailureActsAsIfNeverIssued : Obligations.CommandAfterFailureActsAsIfNeverIssued := by
  unfold Obligations.CommandAfterFailureActsAsIfNeverIssued
  intro i j s t u r h hr hfail hu
  obtain ⟨ht, -, -⟩ := eq_of_exec_failed h hr hfail
  have hst : SameBlock s t := by rw [ht]; exact ⟨rfl, rfl, rfl⟩
  obtain ⟨v, a, hv, hsame, -, hua, hva⟩ := exec_next_of_sameBlock hst hu
  exact ⟨v, a, hv, hsame, hua, hva⟩

/-! ### Responses -/

/-- The response of each command: which commands give which status, and that only DRAIN gives data (R66, R67, R120). -/
theorem exec_next_response {i : Instr} {s t : State} (h : exec i s = .next t) :
    ∃ r, t.responses = s.responses ++ [r] ∧ r.data.length = r.len ∧ (i ≠ .drain → r.len = 0) ∧
      (r.status = .illegalCommand ↔ i = .reserved) ∧
      (r.status = .invalidArgument → ∃ value n, i = .write value n ∧ (n = 0 ∨ 32 < n)) ∧
      (r.status = .bufferExhausted → ∃ value n, i = .write value n) := by
  rcases exec_next_cases h with ⟨value, n, rfl, hn, rfl⟩ | ⟨value, n, rfl, -, -, -, rfl⟩ |
    ⟨value, n, rfl, -, -, -, ht, -⟩ | ⟨rfl, rfl⟩ | ⟨rfl, -, rfl⟩ | ⟨rfl, rfl⟩
  · exact ⟨_, rfl, rfl, fun _ => rfl, by simp, fun _ => ⟨value, n, rfl, hn⟩, nofun⟩
  · exact ⟨_, rfl, rfl, fun _ => rfl, by simp, nofun, fun _ => ⟨value, n, rfl⟩⟩
  · exact ⟨_, congrArg State.responses ht, rfl, fun _ => rfl, by simp, nofun, nofun⟩
  · exact ⟨_, rfl, rfl, fun _ => rfl, by simp, nofun, nofun⟩
  · exact ⟨_, rfl, by simp, fun hne => absurd rfl hne, by simp, nofun, nofun⟩
  · exact ⟨_, rfl, rfl, fun _ => rfl, by simp, nofun, nofun⟩

/-- The codes tell the statuses apart (R67). -/
theorem Status.code_inj {a b : Status} : a.code = b.code ↔ a = b := by
  cases a <;> cases b <;> decide

/-- Settles O19: the codes are distinct, so a response's code says which status it is. -/
theorem statusCodesAsTabled : Obligations.StatusCodesAsTabled := by
  unfold Obligations.StatusCodesAsTabled
  refine ⟨rfl, rfl, rfl, rfl, fun i s t h r hr => ?_⟩
  obtain ⟨a, ha, -, -, hillegal, hinvalid, hexhausted⟩ := exec_next_response h
  obtain rfl := eq_of_responses_eq_append (ha.symm.trans hr)
  refine ⟨(Status.code_inj (b := .illegalCommand)).trans hillegal, fun hcode => ?_⟩
  rcases hcode with hcode | hcode
  · obtain ⟨value, n, hi, -⟩ := hinvalid ((Status.code_inj (b := .invalidArgument)).1 hcode)
    exact ⟨value, n, hi⟩
  · exact hexhausted ((Status.code_inj (b := .bufferExhausted)).1 hcode)

/-- Settles O20: each outcome of a command appends one response, with data for DRAIN alone. -/
theorem everyCommandAnswersOnce : Obligations.EveryCommandAnswersOnce := by
  unfold Obligations.EveryCommandAnswersOnce
  intro i s t h
  obtain ⟨-, -, hinputs, -⟩ := exec_next_withExchange h
  obtain ⟨r, hr, hlen, hdrain, -⟩ := exec_next_response h
  exact ⟨hinputs, r, hr, hlen, hdrain⟩

/-- Settles O22: the width is checked first, and no other check and no other command answers that status. -/
theorem writeRejectsBadBitCount : Obligations.WriteRejectsBadBitCount := by
  unfold Obligations.WriteRejectsBadBitCount
  refine ⟨fun s value n hn => ⟨_, exec_write_of_badWidth s value hn, rfl, rfl, rfl, rfl⟩, fun i s t r h hr hbad => ?_⟩
  obtain ⟨a, ha, -, -, -, hinvalid, -⟩ := exec_next_response h
  obtain rfl := eq_of_responses_eq_append (ha.symm.trans hr)
  exact hinvalid hbad

/-! ### The step (R50, R69) -/

/-- A step performs the oldest command word. -/
theorem step_command {s : State} {w : CmdWord} {rest : List HostEvent} (h : s.inputs = .command w :: rest) :
    step s = exec (decode w) (s.withInputs rest) := by
  unfold step
  rw [h]

theorem step_idle {s : State} (h : s.inputs = []) : step s = .next s := by
  unfold step
  rw [h]

theorem step_powerCycle {s : State} {rest : List HostEvent} (h : s.inputs = .powerCycle :: rest) :
    step s = .next (s.withInputs rest).powerCycled := by
  unfold step
  rw [h]

theorem step_overlapping {s : State} {first second : CmdWord} {rest : List HostEvent}
    (h : s.inputs = .overlapping first second :: rest) : step s = .refused .overlappingCommands := by
  unfold step
  rw [h]

/-- A word of 40 bits is read whole from the table's numbering (R70). -/
theorem tableWord_of_lt {w : Nat} (hw : w < 2 ^ 40) : tableWord 40 w = BitVec.ofNat 40 w := by
  rw [tableWord, Nat.mod_eq_of_lt hw]

/-- Settles O7: the issued word is the oldest event, and 40 bits hold it. -/
theorem stepRunsTheIssuedCommand : Obligations.StepRunsTheIssuedCommand := by
  unfold Obligations.StepRunsTheIssuedCommand
  refine ⟨fun s w rest h => step_command h, fun s w hw => ⟨?_, ?_⟩⟩
  · rw [← tableWord_of_lt hw]
    exact step_command (s := s.withFetchWord 40 w) rfl
  · rw [← tableWord_of_lt hw]
    rfl

/-- Settles O8: each is the step's own arm for that event, power-on reset keeping the exchange. -/
theorem idleAndPowerCycleSteps : Obligations.IdleAndPowerCycleSteps := by
  unfold Obligations.IdleAndPowerCycleSteps
  exact ⟨fun s h => step_idle h, fun s rest h => step_powerCycle h⟩

/-- Settles O9: the step's arm for an overlap. -/
theorem overlappingCommandsAreRefused : Obligations.OverlappingCommandsAreRefused := by
  unfold Obligations.OverlappingCommandsAreRefused
  exact fun s first second rest h => step_overlapping h

/-- Settles O26: `raise` touches the responses only, and `op = 11` is decoded as the reserved command whatever follows. -/
theorem reservedAnswersIllegalCommand : Obligations.ReservedAnswersIllegalCommand := by
  unfold Obligations.ReservedAnswersIllegalCommand
  refine ⟨fun s => ⟨_, exec_reserved_eq s, rfl, rfl, rfl, rfl⟩, fun s w rest h hop => ?_⟩
  rw [step_command h, decode_of_opField_three hop]
  rfl

/-- Settles O10: of the commands DRAIN alone can stop, and only past the capacity. -/
theorem legalStatesNeverFault : Obligations.LegalStatesNeverFault := by
  unfold Obligations.LegalStatesNeverFault
  refine ⟨fun s hlegal => ?_, fun s i hi => exists_exec_eq_next (.inl hi), fun s hc => exists_exec_eq_next (.inr hc)⟩
  obtain ⟨-, hc, -⟩ := hlegal
  cases hin : s.inputs with
  | nil => exact .inl ⟨s, step_idle hin⟩
  | cons event rest =>
    cases event with
    | command w =>
      left
      rw [step_command hin]
      exact exists_exec_eq_next (.inr hc)
    | overlapping first second => exact .inr ⟨first, second, rest, rfl⟩
    | powerCycle => exact .inl ⟨_, step_powerCycle hin⟩

end Sys2Proof.Machine
end

section
/-! The bits a WRITE puts into storage, and the fields they read back as (R16, R41, R86, R90). -/

namespace Sys2Proof.Machine

/-! ### Numbers from bits -/

theorem bitsValue_lt (bit : Nat → Bool) (n : Nat) : bitsValue bit n < 2 ^ n := by
  induction n with
  | zero => exact Nat.two_pow_pos 0
  | succ n ih =>
    rw [bitsValue, Nat.pow_succ]
    split <;> omega

theorem testBit_bitsValue (bit : Nat → Bool) (n i : Nat) :
    (bitsValue bit n).testBit i = (decide (i < n) && bit i) := by
  induction n with
  | zero => simp [bitsValue]
  | succ n ih =>
    rcases Nat.lt_trichotomy i n with hi | rfl | hi
    · rw [decide_eq_true hi] at ih
      rw [decide_eq_true (Nat.lt_succ_of_lt hi), ← ih, bitsValue]
      split
      · rw [Nat.add_comm, Nat.testBit_two_pow_add_gt hi]
      · rw [Nat.add_zero]
    · rw [decide_eq_false (Nat.lt_irrefl i), Bool.false_and] at ih
      rw [decide_eq_true (Nat.lt_succ_self i), Bool.true_and, bitsValue]
      split
      · next hbit => rw [Nat.add_comm, Nat.testBit_two_pow_add_eq, ih, hbit, Bool.not_false]
      · next hbit => rw [Nat.add_zero, ih, Bool.eq_false_iff.2 hbit]
    · have hlt := (bitsValue_lt bit (n + 1)).trans_le (Nat.pow_le_pow_right (by decide) hi)
      rw [Nat.testBit_lt_two_pow hlt, decide_eq_false (by omega), Bool.false_and]

/-- A field reads the same in two states whose bits there agree. -/
theorem State.field_congr {s t : State} {k n : Nat}
    (h : ∀ i < n, t.storage.bitAt (k + i) = s.storage.bitAt (k + i)) : t.field k n = s.field k n := by
  apply Nat.eq_of_testBit_eq
  intro i
  rw [State.field, State.field, testBit_bitsValue, testBit_bitsValue]
  by_cases hi : i < n
  · rw [h i hi]
  · rw [decide_eq_false hi, Bool.false_and, Bool.false_and]

/-- A field whose bits are the low bits of a value reads as that value, masked (R85, R90). -/
theorem State.field_eq_mod {s : State} {k n : Nat} {value : FieldValue}
    (h : ∀ i < n, s.storage.bitAt (k + i) = value.getLsbD i) : s.field k n = value.toNat % 2 ^ n := by
  apply Nat.eq_of_testBit_eq
  intro i
  rw [State.field, testBit_bitsValue, Nat.testBit_mod_two_pow, BitVec.testBit_toNat]
  by_cases hi : i < n
  · rw [h i hi]
  · rw [decide_eq_false hi, Bool.false_and, Bool.false_and]

/-! ### The bits of a WRITE -/

/-- A WRITE of a legal width that fits ORs bit `i` of the value into storage bit `cursor + i`, for `i` below the width. -/
theorem exec_write_of_fits_bitAt {s : State} (value : FieldValue) {n : Nat} (h1 : 1 ≤ n) (h32 : n ≤ 32)
    (hfit : s.cursor + n ≤ 8 * s.capBytes) :
    ∃ m, exec (.write value n) s =
        .next { s with storage := m, cursor := s.cursor + n, responses := s.responses ++ [⟨.ok, 0, []⟩] } ∧
      ∀ k, m.bitAt k =
        (s.storage.bitAt k || (decide (s.cursor ≤ k ∧ k < s.cursor + n) && value.getLsbD (k - s.cursor))) := by
  rcases execWrite_cases value n s with ⟨hbad, -⟩ | ⟨-, -, hover, -⟩ | ⟨-, -, -, m, hrun, -, hbit, -⟩
  · omega
  · omega
  · exact ⟨m, hrun, hbit⟩

/-- No WRITE changes a bit outside its field. In every state, whatever it answers (R86). -/
theorem bitAt_of_exec_write {s t : State} {value : FieldValue} {n k : Nat} (h : exec (.write value n) s = .next t)
    (hk : k < s.cursor ∨ s.cursor + n ≤ k) : t.storage.bitAt k = s.storage.bitAt k := by
  rcases execWrite_cases value n s with ⟨-, hrun⟩ | ⟨-, -, -, hrun⟩ | ⟨-, -, -, m, hrun, -, hbit, -⟩
  · obtain rfl := Host.Outcome.next.inj (hrun.symm.trans h)
    rfl
  · obtain rfl := Host.Outcome.next.inj (hrun.symm.trans h)
    rfl
  · obtain rfl := Host.Outcome.next.inj (hrun.symm.trans h)
    have hout : ¬ (s.cursor ≤ k ∧ k < s.cursor + n) := by omega
    exact (hbit k).trans (by rw [decide_eq_false hout, Bool.false_and, Bool.or_false])

/-- From the zero invariant a WRITE that fits puts its bits as they are, and no others (R41, R86). -/
theorem State.ZeroBeyondCursor.exec_write {s : State} (hz : s.ZeroBeyondCursor) (value : FieldValue) {n : Nat}
    (h1 : 1 ≤ n) (h32 : n ≤ 32) (hfit : s.cursor + n ≤ 8 * s.capBytes) :
    ∃ t, exec (.write value n) s = .next t ∧ t.cursor = s.cursor + n ∧
      ∀ i < n, t.storage.bitAt (s.cursor + i) = value.getLsbD i := by
  obtain ⟨m, hrun, hbit⟩ := exec_write_of_fits_bitAt value h1 h32 hfit
  refine ⟨_, hrun, rfl, fun i hi => ?_⟩
  have hzero : s.storage.bitAt (s.cursor + i) = false := hz _ (by unfold State.wordCount; omega) (by omega)
  have hin : s.cursor ≤ s.cursor + i ∧ s.cursor + i < s.cursor + n := by omega
  exact (hbit _).trans (by rw [hzero, decide_eq_true hin, Bool.true_and, Bool.false_or, Nat.add_sub_cancel_left])

/-- From the zero invariant the field of a WRITE that fits reads back masked (R90). -/
theorem State.ZeroBeyondCursor.exec_write_field {s : State} (hz : s.ZeroBeyondCursor) (value : FieldValue) {n : Nat}
    (h1 : 1 ≤ n) (h32 : n ≤ 32) (hfit : s.cursor + n ≤ 8 * s.capBytes) :
    ∃ t, exec (.write value n) s = .next t ∧ t.field s.cursor n = value.toNat % 2 ^ n := by
  obtain ⟨t, hrun, -, hbits⟩ := hz.exec_write value h1 h32 hfit
  exact ⟨t, hrun, State.field_eq_mod hbits⟩

/-- Settles O28: where the zero invariant holds, an OR into the field's bits is a store of them. -/
theorem writeSetsExactlyItsBits : Obligations.WriteSetsExactlyItsBits := by
  unfold Obligations.WriteSetsExactlyItsBits
  intro s value n hz h1 h32 hfit
  obtain ⟨t, hrun, hcursor, hbits⟩ := hz.exec_write value h1 h32 hfit
  have hwords : s.cursor + n ≤ 64 * s.wordCount := by unfold State.wordCount; omega
  exact ⟨by omega, by omega, t, hrun, hcursor, hbits, fun k hk => bitAt_of_exec_write hrun hk⟩

/-- Settles O29: a byte outside the field's bytes has all its bits outside the field, and an error touches nothing. -/
theorem writeFrame : Obligations.WriteFrame := by
  unfold Obligations.WriteFrame
  intro s t value n h
  have hbit : ∀ k, k < s.cursor ∨ s.cursor + n ≤ k → t.storage.bitAt k = s.storage.bitAt k := fun k hk =>
    bitAt_of_exec_write h hk
  have hbyte : ∀ j, j < s.cursor / 8 ∨ s.cursor + n ≤ 8 * j → t.storage.byteAt j = s.storage.byteAt j := fun j hj =>
    Memory.byteAt_eq_of_bitAt_eq fun b hb => hbit _ (by omega)
  rcases exec_write_next_cases h with ⟨error, herr, rfl⟩ | ⟨-, m, rfl⟩
  · exact ⟨rfl, rfl, hbit, hbyte, _, rfl, fun hok => absurd hok herr, fun _ => ⟨rfl, fun _ => rfl⟩⟩
  · exact ⟨rfl, rfl, hbit, hbyte, _, rfl, fun _ => rfl, fun hne => absurd rfl hne⟩

/-- Settles O31: the field's bits are the low bits of the value. -/
theorem fieldReadsBack : Obligations.FieldReadsBack := by
  unfold Obligations.FieldReadsBack
  intro s value n hz h1 h32 hfit
  obtain ⟨t, hrun, hfield⟩ := hz.exec_write_field value h1 h32 hfit
  exact ⟨t, hrun, hfield, fun hlt => hfield.trans (Nat.mod_eq_of_lt hlt)⟩

/-- Settles O32: a WRITE changes no bit below the cursor, and DRAIN and the reserved word change no storage. -/
theorem writtenFieldsStay : Obligations.WrittenFieldsStay := by
  unfold Obligations.WrittenFieldsStay
  intro i s t k n hi h hk
  cases i with
  | write value width => exact State.field_congr fun b hb => bitAt_of_exec_write h (.inl (by omega))
  | reset => exact absurd rfl hi
  | drain =>
    obtain ⟨-, rfl⟩ := exec_drain_eq_next_iff.1 h
    rfl
  | reserved =>
    obtain rfl := Host.Outcome.next.inj ((exec_reserved_eq s).symm.trans h)
    rfl

/-- The value a host presents for an integer, masked to a field (R89, D22): masking forgets the reduction mod `2^32`. -/
theorem toNat_presented_mod (r : Int) {n : Nat} (hn : n ≤ 32) :
    (((BitVec.ofNat 32 (r % 2 ^ 32).toNat).toNat % 2 ^ n : Nat) : Int) = r % 2 ^ n := by
  have hdvd : (2 : Int) ^ n ∣ 2 ^ 32 := pow_dvd_pow 2 hn
  have hcast : (((r % 2 ^ 32).toNat : Nat) : Int) = r % 2 ^ 32 := Int.toNat_of_nonneg (Int.emod_nonneg r (by decide))
  rw [BitVec.toNat_ofNat, Nat.mod_mod_of_dvd _ (pow_dvd_pow 2 hn), Int.natCast_mod, hcast]
  push_cast
  exact Int.emod_emod_of_dvd r hdvd

/-- Settles O33: the stored field is the presented value mod `2^n`, and `2^n` divides `2^32`. -/
theorem quantizerCodeIsStored : Obligations.QuantizerCodeIsStored := by
  unfold Obligations.QuantizerCodeIsStored
  intro s r n hz h1 h30 hfit
  obtain ⟨t, hrun, hfield⟩ := hz.exec_write_field (BitVec.ofNat 32 (r % 2 ^ 32).toNat) h1 (by omega) hfit
  exact ⟨t, hrun, by rw [hfield]; exact toNat_presented_mod r (by omega)⟩

end Sys2Proof.Machine
end

section
/-! What RESET leaves in full, and what DRAIN shows of the cursor (R30, R101, R103). -/

namespace Sys2Proof.Machine

/-- Settles O34: RESET writes the cleared storage and the cursor, and its response. -/
theorem resetClearsEveryWord : Obligations.ResetClearsEveryWord := by
  unfold Obligations.ResetClearsEveryWord
  intro s
  refine ⟨_, _, exec_reset_eq s, rfl, rfl, rfl, rfl, rfl, fun w hw => s.wordAt_clearedStorage_of_lt hw, rfl, rfl,
    fun j hj => ?_⟩
  exact (s.byteAt_clearedStorage j).trans (if_neg (Nat.not_lt.2 hj))

/-- A storage in form has no cell past the words, so clearing the words leaves none (R103). -/
theorem State.StorageInForm.clearedStorage_eq_nil {s : State} (h : s.StorageInForm) : s.clearedStorage = [] := by
  rw [s.clearedStorage_eq_filter, List.filter_eq_nil_iff]
  intro c hc
  simpa using h.2 c hc

/-- RESET of a storage in form is power-on of its capacity (R103, R142). -/
theorem State.StorageInForm.exec_reset {s : State} (h : s.StorageInForm) :
    exec .reset s = .next { State.powerOn s.capBytes with
      inputs := s.inputs, responses := s.responses ++ [⟨.ok, 0, []⟩] } := by
  rw [exec_reset_eq, h.clearedStorage_eq_nil]
  rfl

/-- Settles O35: power-on storage lists nothing, and neither does the cleared one. -/
theorem resetEqualsPowerOn : Obligations.ResetEqualsPowerOn := by
  unfold Obligations.ResetEqualsPowerOn
  exact fun s h => ⟨_, h.exec_reset, rfl⟩

theorem State.drainResponse_of_cursor_eq_zero {s : State} (h : s.cursor = 0) : s.drainResponse = ⟨.ok, 0, []⟩ := by
  simp [State.drainResponse, h, drainLength]

/-- Settles O36: after RESET the cursor is 0, and DRAIN's length is that of an empty stream. -/
theorem resetThenDrainIsEmpty : Obligations.ResetThenDrainIsEmpty := by
  unfold Obligations.ResetThenDrainIsEmpty
  intro s t h
  have hzero : t.cursor = 0 := by
    obtain rfl := Host.Outcome.next.inj ((exec_reset_eq s).symm.trans h)
    rfl
  have hrun := exec_drain_of_inRange (s := t) (hzero.trans_le (Nat.zero_le _))
  rw [State.drainResponse_of_cursor_eq_zero hzero] at hrun
  exact ⟨_, _, hrun, rfl, rfl, rfl, rfl⟩

/-- DRAIN shows the byte the cursor ends in and the bits of storage, and nothing finer (R30). -/
theorem State.drainResponse_congr {s t : State} (hc : s.CursorInRange)
    (hbits : ∀ k < 64 * s.wordCount, s.storage.bitAt k = t.storage.bitAt k)
    (hlen : drainLength s.cursor = drainLength t.cursor) : s.drainResponse = t.drainResponse := by
  have hbyte : ∀ j ∈ List.range (drainLength s.cursor), s.storage.byteAt j = t.storage.byteAt j := fun j hj => by
    have hj : j < drainLength s.cursor := List.mem_range.1 hj
    have hcap := hc.drainLength_le
    exact Memory.byteAt_eq_of_bitAt_eq fun b hb => hbits _ (by unfold State.wordCount; omega)
  rw [State.drainResponse, State.drainResponse, List.map_congr_left hbyte, hlen]

/-- Settles O39: the drained bytes are the same ones; the room left differs, so the WRITE that fills the larger room
overflows the smaller. -/
theorem drainHidesTheExactCursor : Obligations.DrainHidesTheExactCursor := by
  unfold Obligations.DrainHidesTheExactCursor
  intro s t hs ht hcap hbits hlen
  refine ⟨?_, fun hlt hroom => ?_⟩
  · rw [exec_drain_of_inRange hs, exec_drain_of_inRange ht, ← State.drainResponse_congr hs hbits hlen]
    exact ⟨_, _, _, rfl, rfl, rfl, rfl⟩
  · have htcap : t.cursor ≤ 8 * t.capBytes := ht
    obtain ⟨m, hrun, -⟩ := exec_write_of_fits (s := s) 0#32 (n := 8 * s.capBytes - s.cursor)
      (by omega) (by omega) (by omega)
    have hover := exec_write_of_overflow (s := t) 0#32 (n := 8 * s.capBytes - s.cursor)
      (by omega) (by omega) (by omega)
    exact ⟨_, _, _, _, hrun, hover, rfl, rfl, rfl, rfl⟩

end Sys2Proof.Machine
end

section
/-! The invariants of the block (R21, R24, R66): they hold at power-on and every step keeps them. -/

namespace Sys2Proof.Machine

theorem State.powerOn_legal {capBytes : Nat} (h : 1 ≤ capBytes) : (State.powerOn capBytes).Legal :=
  ⟨h, Nat.zero_le _, fun k _ _ => Memory.bitAt_nil k, ⟨⟨List.Pairwise.nil, nofun⟩, nofun⟩, nofun⟩

/-- Settles O13: power-on storage lists nothing, and `State.reset` has the capacity of `Config.capBytes`. -/
theorem powerOnIsLegal : Obligations.PowerOnIsLegal := by
  unfold Obligations.PowerOnIsLegal
  have hcap : 1 ≤ Config.capBytes := by decide
  exact ⟨fun _ h => State.powerOn_legal h, ⟨Config.capBytes, hcap, rfl⟩, State.powerOn_legal hcap⟩

/-- The invariants speak of the block and of the responses, not of the events to come. -/
theorem State.Legal.withInputs {s : State} (h : s.Legal) (rest : List HostEvent) : (s.withInputs rest).Legal := h

/-- After a loss of power the block is as at power-on, and the responses kept have their shape (R140). -/
theorem State.Legal.powerCycled {s : State} (h : s.Legal) : s.powerCycled.Legal := by
  obtain ⟨hcap, -, -, -, hshape⟩ := h
  obtain ⟨-, hcur, hzero, hform, -⟩ := State.powerOn_legal hcap
  exact ⟨hcap, hcur, hzero, hform, hshape⟩

/-- One more response of the stated shape. -/
theorem State.Legal.append_response {s : State} (h : s.Legal) {r : Response} (hr : r.InShape s.capBytes) :
    State.Legal { s with responses := s.responses ++ [r] } := by
  obtain ⟨hcap, hcur, hzero, hform, hshape⟩ := h
  refine ⟨hcap, hcur, hzero, hform, fun a ha => ?_⟩
  rcases List.mem_append.1 ha with ha | ha
  · exact hshape a ha
  · rw [List.mem_singleton.1 ha]
    exact hr

/-- A response without data has the stated shape (R66). -/
theorem Response.inShape_of_empty (status : Status) (capBytes : Nat) : Response.InShape ⟨status, 0, []⟩ capBytes :=
  ⟨rfl, Nat.zero_le _, fun _ => rfl⟩

/-- So has the response of DRAIN, the cursor being within the capacity (R105). -/
theorem State.drainResponse_inShape {s : State} (hc : s.CursorInRange) : s.drainResponse.InShape s.capBytes :=
  ⟨s.length_data_drainResponse, hc.drainLength_le, fun hne => absurd rfl hne⟩

/-- A WRITE that fits keeps the invariants of the block: the bits it sets lie below the new cursor (R86, R87). -/
theorem State.Legal.written {s : State} (h : s.Legal) {m : Memory} {value : FieldValue} {n : Nat}
    (hfit : s.cursor + n ≤ 8 * s.capBytes)
    (hbit : ∀ k, m.bitAt k =
      (s.storage.bitAt k || (decide (s.cursor ≤ k ∧ k < s.cursor + n) && value.getLsbD (k - s.cursor))))
    (hwf : s.storage.wf → m.wf) (hmem : ∀ c ∈ m, c.1 < 8 * s.wordCount ∨ c ∈ s.storage) :
    State.Legal { s with storage := m, cursor := s.cursor + n } := by
  obtain ⟨hcap, -, hzero, ⟨hswf, hbytes⟩, hshape⟩ := h
  refine ⟨hcap, hfit, fun k hk hbeyond => ?_, ⟨hwf hswf, fun c hc => ?_⟩, hshape⟩
  · change s.cursor + n ≤ k at hbeyond
    have hout : ¬ (s.cursor ≤ k ∧ k < s.cursor + n) := by omega
    exact (hbit k).trans (by rw [hzero k hk (by omega), decide_eq_false hout, Bool.false_and, Bool.false_or])
  · exact (hmem c hc).elim id (hbytes c)

/-- RESET keeps the invariants of the block: no bit below `64 * W` is left, and no cell (R101). -/
theorem State.Legal.cleared {s : State} (h : s.Legal) :
    State.Legal { s with storage := s.clearedStorage, cursor := 0 } := by
  obtain ⟨hcap, -, -, hform, hshape⟩ := h
  refine ⟨hcap, Nat.zero_le _, fun k hk _ => s.bitAt_clearedStorage_of_lt hk, ?_, hshape⟩
  rw [State.StorageInForm, hform.clearedStorage_eq_nil]
  exact ⟨⟨List.Pairwise.nil, nofun⟩, nofun⟩

/-- Every command keeps the invariants. -/
theorem State.Legal.exec {i : Instr} {s t : State} (hs : s.Legal) (h : exec i s = .next t) : t.Legal := by
  rcases exec_next_cases h with ⟨_, _, -, -, rfl⟩ | ⟨_, _, -, -, -, -, rfl⟩ |
    ⟨_, n, -, -, -, hfit, ht, -, hbit, hwf, hmem⟩ | ⟨-, rfl⟩ | ⟨-, hc, rfl⟩ | ⟨-, rfl⟩
  · exact hs.append_response (Response.inShape_of_empty _ _)
  · exact hs.append_response (Response.inShape_of_empty _ _)
  · rw [ht]
    exact (hs.written hfit hbit hwf hmem).append_response (Response.inShape_of_empty _ _)
  · exact hs.cleared.append_response (Response.inShape_of_empty _ _)
  · exact hs.append_response (State.drainResponse_inShape hc)
  · exact hs.append_response (Response.inShape_of_empty _ _)

/-- Settles O14: an idle step keeps the state, a command its invariants, and power-on reset restores them. -/
theorem stepKeepsLegal : Obligations.StepKeepsLegal := by
  unfold Obligations.StepKeepsLegal
  intro s t hs h
  rcases step_next_cases h with ⟨-, rfl⟩ | ⟨w, rest, -, hexec⟩ | ⟨rest, -, rfl⟩
  · exact hs
  · exact (hs.withInputs rest).exec hexec
  · exact (hs.withInputs rest).powerCycled

/-! ### What a step leaves of the capacity, the cursor, the padding and the responses -/

theorem capBytes_of_exec {i : Instr} {s t : State} (h : exec i s = .next t) : t.capBytes = s.capBytes := by
  rcases exec_next_cases h with ⟨_, _, -, -, ht⟩ | ⟨_, _, -, -, -, -, ht⟩ | ⟨_, _, -, -, -, -, ht, -⟩ |
    ⟨-, ht⟩ | ⟨-, -, ht⟩ | ⟨-, ht⟩ <;> rw [ht]

/-- Settles O15: no command writes the capacity, and power-on reset keeps it. -/
theorem capacityNeverChanges : Obligations.CapacityNeverChanges := by
  unfold Obligations.CapacityNeverChanges
  intro s t h
  rcases step_next_cases h with ⟨-, rfl⟩ | ⟨w, rest, -, hexec⟩ | ⟨rest, -, rfl⟩
  · rfl
  · exact (capBytes_of_exec hexec).trans rfl
  · rfl

/-- A command leaves the cursor, or is a WRITE that fits and advances it, or is a RESET (R25). -/
theorem cursor_of_exec {i : Instr} {s t : State} (h : exec i s = .next t) :
    t.cursor = s.cursor ∨
    (∃ value n, i = .write value n ∧ 1 ≤ n ∧ n ≤ 32 ∧ t.cursor = s.cursor + n ∧ t.cursor ≤ s.capacityBits) ∨
    (i = .reset ∧ t.cursor = 0) := by
  rcases exec_next_cases h with ⟨_, _, -, -, rfl⟩ | ⟨_, _, -, -, -, -, rfl⟩ | ⟨value, n, hi, h1, h32, hfit, ht, -⟩ |
    ⟨hi, rfl⟩ | ⟨-, -, rfl⟩ | ⟨-, rfl⟩
  · exact .inl rfl
  · exact .inl rfl
  · have hcur : t.cursor = s.cursor + n := congrArg State.cursor ht
    exact .inr (.inl ⟨value, n, hi, h1, h32, hcur, hcur.trans_le hfit⟩)
  · exact .inr (.inr ⟨hi, rfl⟩)
  · exact .inl rfl
  · exact .inl rfl

/-- Settles O16: an idle step has no command, and a power cycle resets the cursor; the rest is the commands' doing. -/
theorem cursorMovesOnlyByWriteAndReset : Obligations.CursorMovesOnlyByWriteAndReset := by
  unfold Obligations.CursorMovesOnlyByWriteAndReset
  intro s t h
  rcases step_next_cases h with ⟨-, rfl⟩ | ⟨w, rest, hin, hexec⟩ | ⟨rest, hin, rfl⟩
  · exact .inl rfl
  · rcases cursor_of_exec hexec with hcur | ⟨value, n, hd, hwrite⟩ | ⟨hd, hcur⟩
    · exact .inl hcur
    · exact .inr (.inl ⟨w, rest, value, n, hin, hd, hwrite⟩)
    · exact .inr (.inr (.inl ⟨hcur, w, rest, hin, hd⟩))
  · exact .inr (.inr (.inr ⟨rfl, rest, hin⟩))

/-- No command sets a bit at or past the capacity: a WRITE's field ends within it, and RESET only clears (R23). -/
theorem bitAt_of_exec_past_capacity {i : Instr} {s t : State} (h : exec i s = .next t) {k : Nat}
    (hk : s.capacityBits ≤ k) (hone : t.storage.bitAt k = true) : s.storage.bitAt k = true := by
  rcases exec_next_cases h with ⟨_, _, -, -, rfl⟩ | ⟨_, _, -, -, -, -, rfl⟩ | ⟨_, n, rfl, -, -, hfit, -⟩ |
    ⟨-, rfl⟩ | ⟨-, -, rfl⟩ | ⟨-, rfl⟩
  · exact hone
  · exact hone
  · rwa [bitAt_of_exec_write h (.inr (hfit.trans hk))] at hone
  · change s.clearedStorage.bitAt k = true at hone
    rw [s.bitAt_clearedStorage] at hone
    split at hone
    · cases hone
    · exact hone
  · exact hone
  · exact hone

/-- Settles O17: no command sets such a bit, and power-on storage has no bit set. -/
theorem paddingIsNeverWritten : Obligations.PaddingIsNeverWritten := by
  unfold Obligations.PaddingIsNeverWritten
  intro s t h k hk hone
  rcases step_next_cases h with ⟨-, rfl⟩ | ⟨w, rest, -, hexec⟩ | ⟨rest, -, rfl⟩
  · exact hone
  · exact bitAt_of_exec_past_capacity hexec hk hone
  · rw [State.powerCycled_storage, Memory.bitAt_nil] at hone
    cases hone

/-- Settles O21: a command appends its response, and the other steps keep the responses as they are. -/
theorem givenResponsesNeverChange : Obligations.GivenResponsesNeverChange := by
  unfold Obligations.GivenResponsesNeverChange
  intro s t h
  rcases step_next_cases h with ⟨-, rfl⟩ | ⟨w, rest, -, hexec⟩ | ⟨rest, -, rfl⟩
  · exact List.prefix_rfl
  · obtain ⟨r, hr, -⟩ := exec_next_withExchange hexec
    exact ⟨[r], hr.symm⟩
  · exact List.prefix_rfl

/-- A number up to `bound` fits the register sized for it (R10). -/
theorem lt_two_pow_clog {n bound : Nat} (h : n ≤ bound) : n < 2 ^ Nat.clog 2 (bound + 1) :=
  (Nat.lt_succ_of_le h).trans_le (Nat.le_pow_clog (by decide) _)

/-- Settles O18: the invariants bound the cursor and the lengths, and `clog` is the least exponent that covers a bound. -/
theorem registersFitTheirWidths : Obligations.RegistersFitTheirWidths := by
  unfold Obligations.RegistersFitTheirWidths
  rintro s ⟨-, hcur, -, -, hshape⟩
  refine ⟨lt_two_pow_clog hcur, fun r hr => ?_, fun _ h => Nat.clog_le_of_le_pow h, fun _ h => Nat.clog_le_of_le_pow h⟩
  obtain ⟨-, hlen, -⟩ := hshape r hr
  exact lt_two_pow_clog hlen

end Sys2Proof.Machine
end

section
/-! The block as a machine over a stream of bits (R33, R50): every command acts on the stream as it does on the words. -/

namespace Sys2Proof.Machine

/-! ### The stream machine -/

@[simp] theorem length_fieldBits (value : FieldValue) (n : Nat) : (fieldBits value n).length = n := by
  simp [fieldBits]

theorem getD_fieldBits (value : FieldValue) {n i : Nat} (hi : i < n) :
    (fieldBits value n).getD i false = value.getLsbD i := by
  simp [fieldBits, List.getD_eq_getElem?_getD, hi]

/-- A bit of the stream to which a field was appended. -/
theorem getD_append_fieldBits (bits : List Bool) (value : FieldValue) (n k : Nat) :
    (bits ++ fieldBits value n).getD k false = (bits.getD k false ||
      (decide (bits.length ≤ k ∧ k < bits.length + n) && value.getLsbD (k - bits.length))) := by
  by_cases hk : k < bits.length
  · rw [List.getD_append _ _ _ _ hk, decide_eq_false (by omega), Bool.false_and, Bool.or_false]
  · have hle : bits.length ≤ k := Nat.not_lt.1 hk
    rw [List.getD_append_right _ _ _ _ hle, List.getD_eq_default bits _ hle, Bool.false_or]
    by_cases hin : k < bits.length + n
    · rw [getD_fieldBits value (by omega), decide_eq_true ⟨hle, hin⟩, Bool.true_and]
    · rw [List.getD_eq_default _ _ (by rw [length_fieldBits]; omega), decide_eq_false (by omega), Bool.false_and]

theorem streamCommand_write_of_badWidth (capBytes : Nat) (bits : List Bool) (value : FieldValue) {n : Nat}
    (hn : n = 0 ∨ 32 < n) : streamCommand capBytes bits (.write value n) = (bits, ⟨.invalidArgument, 0, []⟩) :=
  if_pos hn

theorem streamCommand_write_of_overflow {capBytes : Nat} {bits : List Bool} (value : FieldValue) {n : Nat}
    (h1 : 1 ≤ n) (h32 : n ≤ 32) (hover : 8 * capBytes < bits.length + n) :
    streamCommand capBytes bits (.write value n) = (bits, ⟨.bufferExhausted, 0, []⟩) :=
  (if_neg (by omega)).trans (if_pos hover)

theorem streamCommand_write_of_fits {capBytes : Nat} {bits : List Bool} (value : FieldValue) {n : Nat}
    (h1 : 1 ≤ n) (h32 : n ≤ 32) (hfit : bits.length + n ≤ 8 * capBytes) :
    streamCommand capBytes bits (.write value n) = (bits ++ fieldBits value n, ⟨.ok, 0, []⟩) :=
  (if_neg (by omega)).trans (if_neg (Nat.not_lt.2 hfit))

/-! ### The refinement, one command at a time -/

/-- Storage that holds a stream has the stream's bytes (R40, R106). -/
theorem State.Holds.byteAt {s : State} {bits : List Bool} (h : s.Holds bits) {j : Nat} (hj : j < 8 * s.wordCount) :
    s.storage.byteAt j = BitVec.ofNat 8 (bitsValue (fun i => bits.getD (8 * j + i) false) 8) := by
  obtain ⟨-, hbits⟩ := h
  apply BitVec.eq_of_getLsbD_eq
  intro b hb
  rw [Memory.getLsbD_byteAt _ _ hb, hbits _ (by omega), BitVec.getLsbD_ofNat, testBit_bitsValue, decide_eq_true hb,
    Bool.true_and, Bool.true_and]

/-- DRAIN answers the bytes of the stream. -/
theorem State.Holds.drainResponse {s : State} {bits : List Bool} (h : s.Holds bits) (hc : s.CursorInRange) :
    s.drainResponse = ⟨.ok, (bits.length + 7) / 8, streamBytes bits⟩ := by
  have hbyte : ∀ j ∈ List.range (drainLength s.cursor),
      s.storage.byteAt j = BitVec.ofNat 8 (bitsValue (fun i => bits.getD (8 * j + i) false) 8) := fun j hj => by
    have hj : j < drainLength s.cursor := List.mem_range.1 hj
    have hcap := hc.drainLength_le
    exact h.byteAt (by unfold State.wordCount; omega)
  obtain ⟨hcur, -⟩ := h
  rw [State.drainResponse, List.map_congr_left hbyte, hcur]
  rfl

/-- A WRITE that fits appends its field to the stream. -/
theorem State.Holds.written {s : State} {bits : List Bool} (h : s.Holds bits) {m : Memory} {value : FieldValue} {n : Nat}
    (hbit : ∀ k, m.bitAt k =
      (s.storage.bitAt k || (decide (s.cursor ≤ k ∧ k < s.cursor + n) && value.getLsbD (k - s.cursor)))) :
    State.Holds { s with storage := m, cursor := s.cursor + n } (bits ++ fieldBits value n) := by
  obtain ⟨hcur, hbits⟩ := h
  refine ⟨?_, fun k hk => ?_⟩
  · rw [List.length_append, length_fieldBits, ← hcur]
  · rw [getD_append_fieldBits, ← hcur, ← hbits k hk]
    exact hbit k

/-- RESET empties the stream. -/
theorem State.holds_nil_cleared (s : State) : State.Holds { s with storage := s.clearedStorage, cursor := 0 } [] :=
  ⟨rfl, fun _ hk => s.bitAt_clearedStorage_of_lt hk⟩

/-- Settles O42: each command, in each of its outcomes, does to the stream what the stream machine does, the checks of
WRITE reading the stream's length off the cursor. -/
theorem blockRefinesTheBitStream : Obligations.BlockRefinesTheBitStream := by
  unfold Obligations.BlockRefinesTheBitStream
  intro i s bits hc hold
  have hcur : s.cursor = bits.length := hold.1
  cases i with
  | write value n =>
    by_cases hn : n = 0 ∨ 32 < n
    · rw [streamCommand_write_of_badWidth _ _ _ hn]
      exact ⟨_, exec_write_of_badWidth s value hn, hold, hc, rfl, rfl, rfl⟩
    have h1 : 1 ≤ n := by omega
    have h32 : n ≤ 32 := by omega
    by_cases hfit : s.cursor + n ≤ 8 * s.capBytes
    · obtain ⟨m, hrun, hbit⟩ := exec_write_of_fits_bitAt value h1 h32 hfit
      rw [streamCommand_write_of_fits value h1 h32 (hcur ▸ hfit)]
      exact ⟨_, hrun, hold.written hbit, hfit, rfl, rfl, rfl⟩
    · rw [streamCommand_write_of_overflow value h1 h32 (hcur ▸ Nat.not_le.1 hfit)]
      exact ⟨_, exec_write_of_overflow value h1 h32 (Nat.not_le.1 hfit), hold, hc, rfl, rfl, rfl⟩
  | reset => exact ⟨_, exec_reset_eq s, s.holds_nil_cleared, Nat.zero_le _, rfl, rfl, rfl⟩
  | drain => exact ⟨_, exec_drain_of_inRange hc, hold, hc, by rw [hold.drainResponse hc]; rfl, rfl, rfl⟩
  | reserved => exact ⟨_, exec_reserved_eq s, hold, hc, rfl, rfl, rfl⟩

end Sys2Proof.Machine
end

section
/-! Runs (R50, R151): a sequence of commands, one step each, from power-on or after a RESET. -/

namespace Sys2Proof.Machine

/-- A state that is to be given just the commands `ws`. -/
theorem State.issuing_of_inputs_eq {s : State} {ws : List CmdWord} (h : s.inputs = ws.map HostEvent.command) :
    s.issuing ws = s := by
  rw [State.issuing, ← h]

/-- A run takes its first step and then the others. -/
theorem run_succ_of_step {M : Host.Core} {k : Nat} {s t : M.State} (h : M.step s = .next t) :
    M.run (k + 1) s = M.run k t := by
  rw [Host.Core.run, h]

/-- A run that ends took its first step. -/
theorem exists_step_of_run_succ {M : Host.Core} {k : Nat} {s u : M.State} (h : M.run (k + 1) s = .next u) :
    ∃ t, M.step s = .next t := by
  rw [Host.Core.run] at h
  cases hstep : M.step s with
  | next t => exact ⟨t, rfl⟩
  | fault f => rw [hstep] at h; cases h
  | refused r => rw [hstep] at h; cases h

/-- The step that performs the first of the issued commands. -/
theorem core_step_issuing_cons (s : State) (w : CmdWord) (ws : List CmdWord) :
    Sys2Proof.core.step (s.issuing (w :: ws)) = exec (decode w) (s.issuing ws) :=
  step_command (s := s.issuing (w :: ws)) rfl

/-- A run performs the first command and then runs the others. -/
theorem run_issuing_cons {s t : State} {w : CmdWord} {ws : List CmdWord}
    (h : exec (decode w) (s.issuing ws) = .next t) :
    Sys2Proof.core.run (w :: ws).length (s.issuing (w :: ws)) = Sys2Proof.core.run ws.length (t.issuing ws) := by
  obtain ⟨-, -, hinputs, -⟩ := exec_next_withExchange h
  rw [State.issuing_of_inputs_eq hinputs]
  exact run_succ_of_step ((core_step_issuing_cons s w ws).trans h)

/-- A run from a state that holds a stream ends, and is the run of the stream machine. -/
theorem exists_run_of_holds (ws : List CmdWord) {s : State} {bits : List Bool} (hc : s.CursorInRange)
    (hold : s.Holds bits) :
    ∃ t : State, Sys2Proof.core.run ws.length (s.issuing ws) = .next t ∧ t.inputs = [] ∧ t.capBytes = s.capBytes ∧
      t.responses = s.responses ++ (streamRun s.capBytes bits ws).2 ∧ t.Holds (streamRun s.capBytes bits ws).1 ∧
      t.CursorInRange := by
  induction ws generalizing s bits with
  | nil => exact ⟨s.issuing [], rfl, rfl, rfl, (List.append_nil _).symm, hold, hc⟩
  | cons w ws ih =>
    obtain ⟨t, hexec, hold', hc', hresp, hcap, -⟩ := blockRefinesTheBitStream (decode w) (s.issuing ws) bits hc hold
    obtain ⟨u, hrun, hinputs, hcapu, hrespu, holdu, hcu⟩ := ih hc' hold'
    rw [hcap] at hcapu hrespu holdu
    refine ⟨u, (run_issuing_cons hexec).trans hrun, hinputs, hcapu, ?_, holdu, hcu⟩
    rw [hrespu, hresp, List.append_assoc]
    rfl

theorem length_streamRun (capBytes : Nat) (bits : List Bool) (ws : List CmdWord) :
    (streamRun capBytes bits ws).2.length = ws.length := by
  induction ws generalizing bits with
  | nil => rfl
  | cons w ws ih => simp [streamRun, ih]

theorem State.powerOn_holds (capBytes : Nat) : (State.powerOn capBytes).Holds [] :=
  ⟨rfl, fun k _ => Memory.bitAt_nil k⟩

/-- A run from power-on ends, and is the run of the stream machine from the empty stream. -/
theorem exists_run_powerOn (capBytes : Nat) (ws : List CmdWord) :
    ∃ t : State, Sys2Proof.core.run ws.length ((State.powerOn capBytes).issuing ws) = .next t ∧ t.inputs = [] ∧
      t.capBytes = capBytes ∧ t.responses = (streamRun capBytes [] ws).2 ∧ t.Holds (streamRun capBytes [] ws).1 ∧
      t.CursorInRange :=
  exists_run_of_holds ws (Nat.zero_le _) (State.powerOn_holds capBytes)

/-- Settles O43: the refinement, command by command from the empty stream. -/
theorem runIsTheFoldOfItsCommands : Obligations.RunIsTheFoldOfItsCommands := by
  unfold Obligations.RunIsTheFoldOfItsCommands
  intro capBytes ws _
  obtain ⟨t, hrun, hinputs, hcap, hresp, hold, -⟩ := exists_run_powerOn capBytes ws
  exact ⟨t, hrun, hinputs, hcap, hresp ▸ length_streamRun _ _ _, hresp, hold⟩

/-! ### The stream as the accepted fields (R32, R33) -/

@[simp] theorem wireFormat_nil : wireFormat [] = [] := rfl

theorem length_wireFormat (fields : List (FieldValue × Nat)) : (wireFormat fields).length = totalWidth fields := by
  simp [wireFormat, totalWidth, List.length_flatMap]

theorem wireFormat_append (before after : List (FieldValue × Nat)) :
    wireFormat (before ++ after) = wireFormat before ++ wireFormat after := List.flatMap_append

theorem wireFormat_cons (f : FieldValue × Nat) (fields : List (FieldValue × Nat)) :
    wireFormat (f :: fields) = fieldBits f.1 f.2 ++ wireFormat fields := List.flatMap_cons

/-- Bit `i` of a field stands after the fields before it. -/
theorem getD_wireFormat (before : List (FieldValue × Nat)) (f : FieldValue × Nat) (after : List (FieldValue × Nat))
    {i : Nat} (hi : i < f.2) :
    (wireFormat (before ++ f :: after)).getD (totalWidth before + i) false = f.1.getLsbD i := by
  rw [wireFormat_append, wireFormat_cons, ← length_wireFormat,
    List.getD_append_right _ _ _ _ (Nat.le_add_right _ _), Nat.add_sub_cancel_left,
    List.getD_append _ _ _ _ (by rwa [length_fieldBits]), getD_fieldBits f.1 hi]

/-- A command leaves the stream of the fields accepted so far, its own among them. -/
theorem streamCommand_wireFormat (capBytes : Nat) (fields : List (FieldValue × Nat)) (w : CmdWord) :
    (streamCommand capBytes (wireFormat fields) (decode w)).1 =
      wireFormat (acceptCommand fields (w, (streamCommand capBytes (wireFormat fields) (decode w)).2)) := by
  unfold acceptCommand
  cases decode w with
  | write value n =>
    by_cases hn : n = 0 ∨ 32 < n
    · rw [streamCommand_write_of_badWidth _ _ _ hn]
      rfl
    by_cases hfit : (wireFormat fields).length + n ≤ 8 * capBytes
    · rw [streamCommand_write_of_fits value (by omega) (by omega) hfit]
      simp [wireFormat]
    · rw [streamCommand_write_of_overflow value (by omega) (by omega) (Nat.not_le.1 hfit)]
      rfl
  | reset => rfl
  | drain => rfl
  | reserved => rfl

/-- The run of the stream machine ends with the stream of the accepted fields. -/
theorem streamRun_wireFormat (capBytes : Nat) (fields : List (FieldValue × Nat)) (ws : List CmdWord) :
    (streamRun capBytes (wireFormat fields) ws).1 =
      wireFormat ((ws.zip (streamRun capBytes (wireFormat fields) ws).2).foldl acceptCommand fields) := by
  induction ws generalizing fields with
  | nil => rfl
  | cons w ws ih =>
    simp only [streamRun, List.zip_cons_cons, List.foldl_cons]
    rw [streamCommand_wireFormat, ih]

/-- After a run from power-on the block holds the stream of the fields accepted since the last reset. -/
theorem holds_acceptedFields {capBytes : Nat} {ws : List CmdWord} {t : State}
    (h : Sys2Proof.core.run ws.length ((State.powerOn capBytes).issuing ws) = .next t) :
    t.Holds (wireFormat (acceptedFields (ws.zip t.responses))) ∧ t.CursorInRange := by
  obtain ⟨u, hrun, -, -, hresp, hold, hc⟩ := exists_run_powerOn capBytes ws
  obtain rfl := Host.Outcome.next.inj (hrun.symm.trans h)
  have hstream := streamRun_wireFormat capBytes [] ws
  rw [wireFormat_nil] at hstream
  rw [acceptedFields, hresp, ← hstream]
  exact ⟨hold, hc⟩

/-- Settles O44: the cursor is the length of the stream of the accepted fields. -/
theorem cursorIsTheSumOfAcceptedWidths : Obligations.CursorIsTheSumOfAcceptedWidths := by
  unfold Obligations.CursorIsTheSumOfAcceptedWidths
  intro capBytes ws t _ h
  obtain ⟨⟨hcur, -⟩, -⟩ := holds_acceptedFields h
  rw [hcur, length_wireFormat]

/-- Settles O45: storage is the stream of the accepted fields, in which each field stands after those before it. -/
theorem storageIsTheAcceptedFields : Obligations.StorageIsTheAcceptedFields := by
  unfold Obligations.StorageIsTheAcceptedFields
  intro capBytes ws t _ h
  obtain ⟨⟨hcur, hbits⟩, hc⟩ := holds_acceptedFields h
  refine ⟨fun before f after hfields => State.field_eq_mod fun i hi => ?_, hbits⟩
  rw [hfields] at hcur hbits
  have hlen : t.cursor = totalWidth before + (f.2 + totalWidth after) := by
    rw [hcur, wireFormat_append, wireFormat_cons, List.length_append, List.length_append, length_fieldBits,
      length_wireFormat, length_wireFormat]
  have hcap : t.cursor ≤ 8 * t.capBytes := hc
  rw [hbits _ (by unfold State.wordCount; omega), getD_wireFormat before f after hi]

/-! ### The overflow boundary (R91) -/

/-- The command words of a sequence of WRITEs. -/
def writeWords (fields : List (FieldValue × Nat)) : List CmdWord := fields.map fun f => encode (.write f.1 f.2)

/-- The stream machine gives a sequence of WRITEs of legal widths the statuses of R91. -/
theorem statuses_streamRun_writeWords (capBytes : Nat) {fields : List (FieldValue × Nat)}
    (hwidth : ∀ f ∈ fields, 1 ≤ f.2 ∧ f.2 ≤ 32) (bits : List Bool) :
    (streamRun capBytes bits (writeWords fields)).2.map (·.status) =
      boundaryStatuses (8 * capBytes) bits.length (fields.map (·.2)) := by
  induction fields generalizing bits with
  | nil => rfl
  | cons f fields ih =>
    obtain ⟨h1, h32⟩ := hwidth f List.mem_cons_self
    have hrest := ih fun g hg => hwidth g (List.mem_cons_of_mem f hg)
    have hdecode : decode (encode (.write f.1 f.2)) = .write f.1 f.2 :=
      decodeEncodeRoundTrip _ (decide_eq_true (by omega))
    simp only [writeWords, List.map_cons, streamRun, boundaryStatuses, hdecode]
    by_cases hfit : bits.length + f.2 ≤ 8 * capBytes
    · rw [streamCommand_write_of_fits f.1 h1 h32 hfit, if_pos hfit]
      have hnow := hrest (bits ++ fieldBits f.1 f.2)
      rw [List.length_append, length_fieldBits] at hnow
      exact congrArg _ hnow
    · rw [streamCommand_write_of_overflow f.1 h1 h32 (Nat.not_le.1 hfit), if_neg hfit]
      exact congrArg _ (hrest bits)

/-- Widths whose total fits are all accepted. -/
theorem boundaryStatuses_eq_ok {capacityBits used : Nat} {widths : List Nat} (h : used + widths.sum ≤ capacityBits) :
    ∀ status ∈ boundaryStatuses capacityBits used widths, status = .ok := by
  induction widths generalizing used with
  | nil => exact nofun
  | cons n ns ih =>
    rw [List.sum_cons] at h
    rw [boundaryStatuses, if_pos (by omega), List.forall_mem_cons]
    exact ⟨rfl, ih (by omega)⟩

/-- Settles O46: the stream's length is the total of the accepted widths, which is what R91 compares. -/
theorem overflowBoundary : Obligations.OverflowBoundary := by
  unfold Obligations.OverflowBoundary
  intro capBytes fields _ hwidth
  obtain ⟨t, hrun, -, -, hresp, -, -⟩ := exists_run_powerOn capBytes (writeWords fields)
  have hstatus := statuses_streamRun_writeWords capBytes hwidth []
  rw [← hresp] at hstatus
  refine ⟨t, ?_, hstatus, fun htotal r hr => ?_⟩
  · rwa [show (writeWords fields).length = fields.length from List.length_map _] at hrun
  · refine boundaryStatuses_eq_ok (capacityBits := 8 * capBytes) (used := 0) (widths := fields.map (·.2)) ?_ _
      (hstatus ▸ List.mem_map_of_mem hr)
    rw [Nat.zero_add]
    exact htotal

/-! ### Runs of one block -/

/-- Two states of one block run alike, with the same new responses (R50). -/
theorem run_of_sameBlock (ws : List CmdWord) {s t u : State} (hst : SameBlock s t)
    (h : Sys2Proof.core.run ws.length (s.issuing ws) = .next u) :
    ∃ (v : State) (rs : List Response), Sys2Proof.core.run ws.length (t.issuing ws) = .next v ∧ SameBlock u v ∧
      u.responses = s.responses ++ rs ∧ v.responses = t.responses ++ rs := by
  induction ws generalizing s t with
  | nil =>
    obtain rfl := Host.Outcome.next.inj h
    exact ⟨t.issuing [], [], rfl, hst, (List.append_nil _).symm, (List.append_nil _).symm⟩
  | cons w ws ih =>
    obtain ⟨s', hstep⟩ := exists_step_of_run_succ h
    have hexec : exec (decode w) (s.issuing ws) = .next s' := (core_step_issuing_cons s w ws).symm.trans hstep
    have hrest := (run_issuing_cons hexec).symm.trans h
    obtain ⟨t', r, hexec', hst', -, hs', ht'⟩ :=
      exec_next_of_sameBlock (s := s.issuing ws) (t := t.issuing ws) hst hexec
    obtain ⟨v, rs, hrun, hsame, hu, hv⟩ := ih hst' hrest
    refine ⟨v, r :: rs, (run_issuing_cons hexec').trans hrun, hsame, ?_, ?_⟩
    · rw [hu, hs', List.append_assoc]
      rfl
    · rw [hv, ht', List.append_assoc]
      rfl

/-- Settles O47: RESET leaves the power-on block, and two states of one block run alike. -/
theorem resetBlockAnswersAsAFreshOne : Obligations.ResetBlockAnswersAsAFreshOne := by
  unfold Obligations.ResetBlockAnswersAsAFreshOne
  intro s t ws hform h
  have hsame : SameBlock (State.powerOn s.capBytes) t := by
    obtain rfl := Host.Outcome.next.inj (hform.exec_reset.symm.trans h)
    exact ⟨rfl, rfl, rfl⟩
  obtain ⟨v, hv, -⟩ := exists_run_powerOn s.capBytes ws
  obtain ⟨u, rs, hu, ⟨hcap, hcur, hsto⟩, hvr, hur⟩ := run_of_sameBlock ws hsame hv
  rw [State.powerOn_responses, List.nil_append] at hvr
  exact ⟨u, v, hu, hv, ⟨hcap.symm, hcur.symm, hsto.symm⟩, by rw [hur, hvr]⟩

end Sys2Proof.Machine
end
